-- ==== Sys2Proof/Word.lean ====
section
/-! DEFINITION. The bit widths of the machine (spec 00_scope.md R7, R13). -/

namespace Sys2Proof

/-- `u8`: a general register, a timer, a memory byte, the immediate `NN` (R13, R93). -/
abbrev Byte := BitVec 8

/-- `u16`: `I`, `PC`, a stack slot, an instruction word (R7, R14). -/
abbrev Word := BitVec 16

/-- `u4`: a register number `X` or `Y`, the row count `N` (R91, R93). -/
abbrev Nibble := BitVec 4

/-- `u12`: the address field `NNN` (R91, R93). -/
abbrev Addr := BitVec 12

end Sys2Proof
end

