-- ==== Sys2Proof/Syntax.lean ====
section
/-! DEFINITION. The 33 instructions (spec 30_encoding.md R96), one constructor per row of the opcode table, in the table's
order. The types of the operands are the fields of R91 and R93: a register number or a row count has 4 bits, an immediate 8,
an address 12, and every value of each is legal. -/

namespace Sys2Proof

/-- The complete instruction list (R96). A docstring gives the row's pattern and the rule of its meaning. -/
inductive Instr where
  /-- `00E0` CLS (R121) -/
  | cls
  /-- `00EE` RET (R122) -/
  | ret
  /-- `1NNN` JP NNN (R123) -/
  | jp (nnn : Addr)
  /-- `2NNN` CALL NNN (R124) -/
  | call (nnn : Addr)
  /-- `3XNN` SE VX, NN (R131) -/
  | seVxNn (x : Nibble) (nn : Byte)
  /-- `4XNN` SNE VX, NN (R132) -/
  | sneVxNn (x : Nibble) (nn : Byte)
  /-- `5XY0` SE VX, VY (R133) -/
  | seVxVy (x y : Nibble)
  /-- `9XY0` SNE VX, VY (R134) -/
  | sneVxVy (x y : Nibble)
  /-- `6XNN` LD VX, NN (R142) -/
  | ldVxNn (x : Nibble) (nn : Byte)
  /-- `7XNN` ADD VX, NN (R143) -/
  | addVxNn (x : Nibble) (nn : Byte)
  /-- `8XY0` LD VX, VY (R144) -/
  | ldVxVy (x y : Nibble)
  /-- `8XY1` OR VX, VY (R145) -/
  | orVxVy (x y : Nibble)
  /-- `8XY2` AND VX, VY (R146) -/
  | andVxVy (x y : Nibble)
  /-- `8XY3` XOR VX, VY (R147) -/
  | xorVxVy (x y : Nibble)
  /-- `8XY4` ADD VX, VY (R148) -/
  | addVxVy (x y : Nibble)
  /-- `8XY5` SUB VX, VY (R149) -/
  | subVxVy (x y : Nibble)
  /-- `8XY6` SHR VX, VY (R150) -/
  | shrVxVy (x y : Nibble)
  /-- `8XY7` SUBN VX, VY (R151) -/
  | subnVxVy (x y : Nibble)
  /-- `8XYE` SHL VX, VY (R152) -/
  | shlVxVy (x y : Nibble)
  /-- `ANNN` LD I, NNN (R160) -/
  | ldI (nnn : Addr)
  /-- `CXNN` RND VX, NN (R161) -/
  | rnd (x : Nibble) (nn : Byte)
  /-- `DXYN` DRW VX, VY, N (R170) -/
  | drw (x y n : Nibble)
  /-- `EX9E` SKP VX (R180) -/
  | skp (x : Nibble)
  /-- `EXA1` SKNP VX (R181) -/
  | sknp (x : Nibble)
  /-- `FX07` LD VX, DT (R190) -/
  | ldVxDt (x : Nibble)
  /-- `FX0A` LD VX, K (R191) -/
  | ldVxK (x : Nibble)
  /-- `FX15` LD DT, VX (R192) -/
  | ldDtVx (x : Nibble)
  /-- `FX18` LD ST, VX (R193) -/
  | ldStVx (x : Nibble)
  /-- `FX1E` ADD I, VX (R194) -/
  | addIVx (x : Nibble)
  /-- `FX29` LD F, VX (R195) -/
  | ldFVx (x : Nibble)
  /-- `FX33` LD B, VX (R196) -/
  | ldBVx (x : Nibble)
  /-- `FX55` LD [I], VX (R197) -/
  | ldMemVx (x : Nibble)
  /-- `FX65` LD VX, [I] (R198) -/
  | ldVxMem (x : Nibble)
  deriving DecidableEq, Repr

end Sys2Proof
end

