-- ==== Sys2Proof/WellFormed.lean ====
section
/-! DEFINITION. What may enter the machine: which instruction terms are well formed (spec 30_encoding.md R93), the host's
events (spec 60_exceptions.md R220) and which of them meet the conditions on their arguments (R221). -/

namespace Sys2Proof

/-- R93: all 16 values of `X`, `Y` and `N`, all 256 of `NN` and all 4096 of `NNN` are legal in every instruction, and the
types of the fields hold nothing else. So no term of `Instr` is ill formed; the words that are no instruction never
become a term (`decodeWord`). -/
def Instr.wellFormed (_ : Instr) : Bool := true

/-- The host's events (R220), each atomic. A key number is a plain number here, because the host could offer one above 15
(R221, D29). `dt` is in seconds, exact (R13, D2). -/
inductive HostEvent where
  /-- `Reset` (70_reset_and_hazards.md R260) -/
  | reset
  /-- `LoadImage(bytes)` (70_reset_and_hazards.md R264) -/
  | loadImage (bytes : List Byte)
  /-- `Frame(dt)` (R226) -/
  | frame (dt : Rat)
  /-- `KeyDown(k)` (R229) -/
  | keyDown (k : Nat)
  /-- `KeyUp(k)` (R230) -/
  | keyUp (k : Nat)
  /-- `ReadDisplay` (R231) -/
  | readDisplay
  /-- `ReadStatus` (R232) -/
  | readStatus
  deriving DecidableEq, Repr

/-- The conditions of R221 on an event's arguments: `dt >= 0`, and `k` is 0 to 15. (When `LoadImage` may come is a condition
on the state, and stands with the event.) -/
def HostEvent.wellFormed : HostEvent → Bool
  | .reset => true
  | .loadImage _ => true
  | .frame dt => decide (0 ≤ dt)
  | .keyDown k => decide (k ≤ 15)
  | .keyUp k => decide (k ≤ 15)
  | .readDisplay => true
  | .readStatus => true

end Sys2Proof
end

