-- ==== Sys2Proof/Decode.lean ====
section
/-! DEFINITION. The fields of an instruction word (spec 30_encoding.md R91, R92), the decoder (R94), the opcode table (R96) and
the encoder, which lays the same fields out again. -/

namespace Sys2Proof

/-- `op = b0 * 256 + b1` (R90, 20_memory.md R65): the byte at the lower address is the high one. -/
def wordOfBytes (b0 b1 : Byte) : Word := b0.setWidth 16 <<< 8 ||| b1.setWidth 16

/-- The byte of a word that stands at the lower address (R65). -/
def firstByte (op : Word) : Byte := op.extractLsb' 8 8

/-- The byte of a word that stands at the higher address (R65). -/
def secondByte (op : Word) : Byte := op.extractLsb' 0 8

/-- `F = op[15:12]`, the opcode family (R91). -/
def fieldF (op : Word) : Nibble := op.extractLsb' 12 4

/-- `X = op[11:8]` (R91). -/
def fieldX (op : Word) : Nibble := op.extractLsb' 8 4

/-- `Y = op[7:4]` (R91). -/
def fieldY (op : Word) : Nibble := op.extractLsb' 4 4

/-- `N = op[3:0]` (R91). -/
def fieldN (op : Word) : Nibble := op.extractLsb' 0 4

/-- `NN = op[7:0]` (R91). -/
def fieldNN (op : Word) : Byte := op.extractLsb' 0 8

/-- `NNN = op[11:0]` (R91). -/
def fieldNNN (op : Word) : Addr := op.extractLsb' 0 12

/-- Family 0x0 (R94): all 16 bits are compared. -/
def decodeFamily0 (op : Word) : Option Instr :=
  if op = 0x00E0#16 then some .cls
  else if op = 0x00EE#16 then some .ret
  else none

/-- Family 0x8 (R94): nine function nibbles; any other is unrecognized. -/
def decodeFamily8 (x y n : Nibble) : Option Instr :=
  match n.toNat with
  | 0x0 => some (.ldVxVy x y)
  | 0x1 => some (.orVxVy x y)
  | 0x2 => some (.andVxVy x y)
  | 0x3 => some (.xorVxVy x y)
  | 0x4 => some (.addVxVy x y)
  | 0x5 => some (.subVxVy x y)
  | 0x6 => some (.shrVxVy x y)
  | 0x7 => some (.subnVxVy x y)
  | 0xE => some (.shlVxVy x y)
  | _ => none

/-- Family 0xE (R94): two function bytes; any other is unrecognized. -/
def decodeFamilyE (x : Nibble) (nn : Byte) : Option Instr :=
  if nn = 0x9E#8 then some (.skp x)
  else if nn = 0xA1#8 then some (.sknp x)
  else none

/-- Family 0xF (R94): nine function bytes; any other is unrecognized (46_familyF.md R199). -/
def decodeFamilyF (x : Nibble) (nn : Byte) : Option Instr :=
  if nn = 0x07#8 then some (.ldVxDt x)
  else if nn = 0x0A#8 then some (.ldVxK x)
  else if nn = 0x15#8 then some (.ldDtVx x)
  else if nn = 0x18#8 then some (.ldStVx x)
  else if nn = 0x1E#8 then some (.addIVx x)
  else if nn = 0x29#8 then some (.ldFVx x)
  else if nn = 0x33#8 then some (.ldBVx x)
  else if nn = 0x55#8 then some (.ldMemVx x)
  else if nn = 0x65#8 then some (.ldVxMem x)
  else none

/-- The decoder (R94): total on words; `none` is "unrecognized" (R91, R97), which the cycle turns into the fault of R211. -/
def decodeWord (op : Word) : Option Instr :=
  match (fieldF op).toNat with
  | 0x0 => decodeFamily0 op
  | 0x1 => some (.jp (fieldNNN op))
  | 0x2 => some (.call (fieldNNN op))
  | 0x3 => some (.seVxNn (fieldX op) (fieldNN op))
  | 0x4 => some (.sneVxNn (fieldX op) (fieldNN op))
  | 0x5 => if fieldN op = 0x0#4 then some (.seVxVy (fieldX op) (fieldY op)) else none
  | 0x6 => some (.ldVxNn (fieldX op) (fieldNN op))
  | 0x7 => some (.addVxNn (fieldX op) (fieldNN op))
  | 0x8 => decodeFamily8 (fieldX op) (fieldY op) (fieldN op)
  | 0x9 => if fieldN op = 0x0#4 then some (.sneVxVy (fieldX op) (fieldY op)) else none
  | 0xA => some (.ldI (fieldNNN op))
  | 0xB => none
  | 0xC => some (.rnd (fieldX op) (fieldNN op))
  | 0xD => some (.drw (fieldX op) (fieldY op) (fieldN op))
  | 0xE => decodeFamilyE (fieldX op) (fieldNN op)
  | _ => decodeFamilyF (fieldX op) (fieldNN op)

/-- What the decoder answers on bytes: an instruction and the bytes after it, or a rejection by name. -/
inductive Decoded where
  /-- The first two bytes are the instruction's word. -/
  | instr (i : Instr) (rest : List Byte)
  /-- The word matches no row of R96 (R97). -/
  | unrecognized (op : Word)
  /-- Fewer than two bytes: no word to read (R90). -/
  | truncated
  deriving DecidableEq, Repr

/-- The decoder on bytes, lowest address first (R65, R90): total, and every rejection has a name. -/
def decodeBytes : List Byte → Decoded
  | b0 :: b1 :: rest =>
    match decodeWord (wordOfBytes b0 b1) with
    | some i => .instr i rest
    | none => .unrecognized (wordOfBytes b0 b1)
  | _ => .truncated

/-- Format A (R92): family and address. -/
def formatA (f : Nibble) (nnn : Addr) : Word := f.setWidth 16 <<< 12 ||| nnn.setWidth 16

/-- Format XB (R92): family, register and byte. Format XF has the same layout, its byte fixed. -/
def formatXB (f x : Nibble) (nn : Byte) : Word :=
  f.setWidth 16 <<< 12 ||| x.setWidth 16 <<< 8 ||| nn.setWidth 16

/-- Formats XY and XYN (R92): family, two registers and a last nibble, fixed in XY and the row count in XYN. -/
def formatXYN (f x y n : Nibble) : Word :=
  f.setWidth 16 <<< 12 ||| x.setWidth 16 <<< 8 ||| y.setWidth 16 <<< 4 ||| n.setWidth 16

/-- The word of an instruction (R92, R96). -/
def encode : Instr → Word
  | .cls => 0x00E0#16
  | .ret => 0x00EE#16
  | .jp nnn => formatA 0x1#4 nnn
  | .call nnn => formatA 0x2#4 nnn
  | .seVxNn x nn => formatXB 0x3#4 x nn
  | .sneVxNn x nn => formatXB 0x4#4 x nn
  | .seVxVy x y => formatXYN 0x5#4 x y 0x0#4
  | .sneVxVy x y => formatXYN 0x9#4 x y 0x0#4
  | .ldVxNn x nn => formatXB 0x6#4 x nn
  | .addVxNn x nn => formatXB 0x7#4 x nn
  | .ldVxVy x y => formatXYN 0x8#4 x y 0x0#4
  | .orVxVy x y => formatXYN 0x8#4 x y 0x1#4
  | .andVxVy x y => formatXYN 0x8#4 x y 0x2#4
  | .xorVxVy x y => formatXYN 0x8#4 x y 0x3#4
  | .addVxVy x y => formatXYN 0x8#4 x y 0x4#4
  | .subVxVy x y => formatXYN 0x8#4 x y 0x5#4
  | .shrVxVy x y => formatXYN 0x8#4 x y 0x6#4
  | .subnVxVy x y => formatXYN 0x8#4 x y 0x7#4
  | .shlVxVy x y => formatXYN 0x8#4 x y 0xE#4
  | .ldI nnn => formatA 0xA#4 nnn
  | .rnd x nn => formatXB 0xC#4 x nn
  | .drw x y n => formatXYN 0xD#4 x y n
  | .skp x => formatXB 0xE#4 x 0x9E#8
  | .sknp x => formatXB 0xE#4 x 0xA1#8
  | .ldVxDt x => formatXB 0xF#4 x 0x07#8
  | .ldVxK x => formatXB 0xF#4 x 0x0A#8
  | .ldDtVx x => formatXB 0xF#4 x 0x15#8
  | .ldStVx x => formatXB 0xF#4 x 0x18#8
  | .addIVx x => formatXB 0xF#4 x 0x1E#8
  | .ldFVx x => formatXB 0xF#4 x 0x29#8
  | .ldBVx x => formatXB 0xF#4 x 0x33#8
  | .ldMemVx x => formatXB 0xF#4 x 0x55#8
  | .ldVxMem x => formatXB 0xF#4 x 0x65#8

/-- The bytes of an instruction, lowest address first (R65). -/
def encodeBytes (i : Instr) : List Byte := [firstByte (encode i), secondByte (encode i)]

/-- A row of R96: `op` is the row's instruction iff `op AND mask = pattern`. -/
structure OpcodeRow where
  pattern : Word
  mask : Word
  deriving DecidableEq, Repr

/-- The row of an instruction, copied from R96. -/
def opcodeRow : Instr → OpcodeRow
  | .cls => ⟨0x00E0, 0xFFFF⟩
  | .ret => ⟨0x00EE, 0xFFFF⟩
  | .jp _ => ⟨0x1000, 0xF000⟩
  | .call _ => ⟨0x2000, 0xF000⟩
  | .seVxNn _ _ => ⟨0x3000, 0xF000⟩
  | .sneVxNn _ _ => ⟨0x4000, 0xF000⟩
  | .seVxVy _ _ => ⟨0x5000, 0xF00F⟩
  | .sneVxVy _ _ => ⟨0x9000, 0xF00F⟩
  | .ldVxNn _ _ => ⟨0x6000, 0xF000⟩
  | .addVxNn _ _ => ⟨0x7000, 0xF000⟩
  | .ldVxVy _ _ => ⟨0x8000, 0xF00F⟩
  | .orVxVy _ _ => ⟨0x8001, 0xF00F⟩
  | .andVxVy _ _ => ⟨0x8002, 0xF00F⟩
  | .xorVxVy _ _ => ⟨0x8003, 0xF00F⟩
  | .addVxVy _ _ => ⟨0x8004, 0xF00F⟩
  | .subVxVy _ _ => ⟨0x8005, 0xF00F⟩
  | .shrVxVy _ _ => ⟨0x8006, 0xF00F⟩
  | .subnVxVy _ _ => ⟨0x8007, 0xF00F⟩
  | .shlVxVy _ _ => ⟨0x800E, 0xF00F⟩
  | .ldI _ => ⟨0xA000, 0xF000⟩
  | .rnd _ _ => ⟨0xC000, 0xF000⟩
  | .drw _ _ _ => ⟨0xD000, 0xF000⟩
  | .skp _ => ⟨0xE09E, 0xF0FF⟩
  | .sknp _ => ⟨0xE0A1, 0xF0FF⟩
  | .ldVxDt _ => ⟨0xF007, 0xF0FF⟩
  | .ldVxK _ => ⟨0xF00A, 0xF0FF⟩
  | .ldDtVx _ => ⟨0xF015, 0xF0FF⟩
  | .ldStVx _ => ⟨0xF018, 0xF0FF⟩
  | .addIVx _ => ⟨0xF01E, 0xF0FF⟩
  | .ldFVx _ => ⟨0xF029, 0xF0FF⟩
  | .ldBVx _ => ⟨0xF033, 0xF0FF⟩
  | .ldMemVx _ => ⟨0xF055, 0xF0FF⟩
  | .ldVxMem _ => ⟨0xF065, 0xF0FF⟩

/-- One instruction of each row, all fields zero: the table of R96, in its order. -/
def rowInstrs : List Instr :=
  [.cls, .ret, .jp 0, .call 0, .seVxNn 0 0, .sneVxNn 0 0, .seVxVy 0 0, .sneVxVy 0 0, .ldVxNn 0 0, .addVxNn 0 0,
   .ldVxVy 0 0, .orVxVy 0 0, .andVxVy 0 0, .xorVxVy 0 0, .addVxVy 0 0, .subVxVy 0 0, .shrVxVy 0 0, .subnVxVy 0 0,
   .shlVxVy 0 0, .ldI 0, .rnd 0 0, .drw 0 0 0, .skp 0, .sknp 0, .ldVxDt 0, .ldVxK 0, .ldDtVx 0, .ldStVx 0, .addIVx 0,
   .ldFVx 0, .ldBVx 0, .ldMemVx 0, .ldVxMem 0]

/-- The instruction the decoder reads from an instruction whose bits are `w`, numbered as spec/opcode_table.json numbers
them: the one 16-bit word `op`, bit 0 its least significant bit, every bit above `nbits` zero. Laid out as the hardware
stores it, high byte first (R65), and decoded from the bytes. -/
def decodeTableWord (nbits w : Nat) : Option Instr :=
  let op : Word := BitVec.ofNat 16 (w % 2 ^ nbits)
  match decodeBytes [firstByte op, secondByte op] with
  | .instr i _ => some i
  | .unrecognized _ => none
  | .truncated => none

end Sys2Proof
end

