-- ==== Sys2Proof/Config.lean ====
section
/-! DEFINITION. What an implementation fixes (spec 00_scope.md R9, R10) and the values nothing fixes (R11). -/

namespace Sys2Proof

/-- `FONT` (R10): 80 bytes, the glyph of digit `d` at offsets `5*d` to `5*d + 4`. -/
abbrev Font := Vector Byte 80

/-- The open parameters of the machine, fixed for a whole run: `FONT` (R10, D6) and `RATE`, a positive number of
instructions per second (R9, D4). A state carries them (log entry 3), so a statement about every state holds for every
font and every rate. -/
structure Config where
  font : Font
  rate : { n : Nat // 0 < n }
  deriving DecidableEq, Repr

/-- `RATE` as the number the scheduler multiplies by (R225). -/
def Config.rateQ (c : Config) : Rat := (c.rate.val : Rat)

/-- The default `FONT` of spec 10_state.md R31, digits 0 to 7. -/
def Config.defaultFontLow : Vector Byte 40 :=
  #v[0xF0, 0x90, 0x90, 0x90, 0xF0, 0x20, 0x60, 0x20, 0x20, 0x70,
     0xF0, 0x10, 0xF0, 0x80, 0xF0, 0xF0, 0x10, 0xF0, 0x10, 0xF0,
     0x90, 0x90, 0xF0, 0x10, 0x10, 0xF0, 0x80, 0xF0, 0x10, 0xF0,
     0xF0, 0x80, 0xF0, 0x90, 0xF0, 0xF0, 0x10, 0x20, 0x40, 0x40]

/-- The default `FONT` of spec 10_state.md R31, digits 8 to F. -/
def Config.defaultFontHigh : Vector Byte 40 :=
  #v[0xF0, 0x90, 0xF0, 0x90, 0xF0, 0xF0, 0x90, 0xF0, 0x10, 0xF0,
     0xF0, 0x90, 0xF0, 0x90, 0x90, 0xE0, 0x90, 0xE0, 0x90, 0xE0,
     0xF0, 0x80, 0x80, 0x80, 0xF0, 0xE0, 0x90, 0x90, 0x90, 0xE0,
     0xF0, 0x80, 0xF0, 0x80, 0xF0, 0xF0, 0x80, 0xF0, 0x80, 0x80]

/-- The default `FONT` (R31, general knowledge by the spec's own mark). DESIGN CHOICE (log entry 3): unsafe for a statement
that rests on a glyph's bytes and does not name this table. -/
def Config.defaultFont : Font := Config.defaultFontLow ++ Config.defaultFontHigh

/-- The parameters `State.reset` carries: the default `FONT` of R31 and the example `RATE` of R9. DESIGN CHOICE (log
entry 3): unsafe for a statement that rests on these values. -/
def Config.standard : Config := ⟨Config.defaultFont, ⟨1000, by decide⟩⟩

/-- `draw_8()` (R11, R15, D16): the free byte of the `n`-th draw. It has no body: nothing is known of it. DESIGN CHOICE of
form (log entry 4): safe. -/
opaque Config.draw8 : Nat → Byte

/-- `draw_16()` (R11, R15, D15): the free 16-bit value of the `n`-th draw. It has no body: nothing is known of it. DESIGN
CHOICE of form (log entry 4): safe. -/
opaque Config.draw16 : Nat → Word

end Sys2Proof
end

