-- ==== Sys2Proof/Machine/State.lean ====
section
/-! DEFINITION. The Machine State (spec 10_state.md R20), the reasons a step can stop, and the state after `Reset` (R47). -/

namespace Sys2Proof.Machine

/-- The five fault causes (60_exceptions.md R210). Taking one is a NEXT state with the mode `Halted` (R216). -/
inductive Cause where
  /-- Code 1 (R211): the fetched word matches no row of 30_encoding.md R96. -/
  | unrecognizedOpcode
  /-- Code 2 (R212): `2NNN` with `SP = 16`. -/
  | stackOverflow
  /-- Code 3 (R213): `00EE` with `SP = 0`. -/
  | stackUnderflow
  /-- Code 4 (R214): a fetch with `PC > 4094`, or a data range that passes 4095. -/
  | memoryOutOfRange
  /-- Code 5 (R215): `EX9E` or `EXA1` with `VX > 15`. -/
  | keyIndexOutOfRange
  deriving DecidableEq, Repr

/-- The fault record (10_state.md R42). -/
structure FaultRecord where
  cause : Cause
  /-- `fault_pc`: where the faulting instruction was fetched from, or the out-of-range `PC` of a fetch fault. -/
  faultPc : Word
  /-- The instruction word, absent for a fetch fault. -/
  opcode : Option Word
  deriving DecidableEq, Repr

/-- `MODE` (10_state.md R40). -/
inductive Mode where
  /-- Cycles fetch and execute. -/
  | running
  /-- No instruction executes until a key-down event, which writes its key number to `V[x]` (R41). -/
  | awaitingKey (x : Nibble)
  /-- A fatal fault was taken; absorbing until `Reset`. -/
  | halted (record : FaultRecord)
  deriving DecidableEq, Repr

/-- Why the MODEL stops. No fault of the spec is here: each of those is a next state (R216). -/
inductive Fault where
  /-- Raised by `2NNN` and `00EE` when `SP` is above 16, a value R26 rules out and no run reaches: the stack has no slot
  there. Safe: the model stops where the spec says nothing (log entry 6). -/
  | stackPointerOutOfRange
  deriving DecidableEq, Repr

/-- Why the model gives no step. All but the first are the refusals of 60_exceptions.md R221. -/
inductive Refusal where
  /-- An instruction with no meaning: raised by nothing, since every arm of `exec` calls a meaning. Safe. -/
  | notModelled (mnemonic : String)
  /-- Raised by a pending `Frame(dt)` with `dt < 0` (R221, D29). Safe: the spec has no step there. -/
  | negativeFrameTime
  /-- Raised by a pending `KeyDown(k)` or `KeyUp(k)` with `k > 15` (R221, D29). Safe: the spec has no step there. -/
  | keyNumberOutOfRange
  /-- Raised by a pending `LoadImage` that does not come directly after `Reset` (R221, D23). Safe: the spec has no step
  there. -/
  | loadImageNotAfterReset
  deriving DecidableEq, Repr

/-- `MEM` (10_state.md R29): the bytes that differ from the reset image, as address and byte, addresses rising. What an
unlisted address reads as is `unlistedByte` (R30). -/
abbrev Memory := List Host.Cell

/-- `DISP` (10_state.md R32): one Bool per cell, set or clear; the cell `(x, y)` has index `64 * y + x`. -/
abbrev Display := Vector Bool 2048

/-- The Machine State (10_state.md R20), and after it four fields of the model's own: the configuration and the inputs of
R46, which the host's `step` has no other argument for. -/
structure State where
  /-- `V0` to `VF` (R21); `VF`, number 15, is also the flag register (R22). -/
  v : Vector Byte 16
  /-- `I` (R23). -/
  i : Word
  /-- `PC` (R24): the address of the next instruction to fetch. -/
  pc : Word
  /-- `SP` (R26): the stack depth, 0 to 16. -/
  sp : Byte
  /-- `STACK` (R27). -/
  stack : Vector Word 16
  /-- `DT`, the delay timer (R28). -/
  dt : Byte
  /-- `ST`, the sound timer (R28). -/
  st : Byte
  /-- `MEM` (R29). -/
  mem : Memory
  /-- `DISP` (R32). -/
  disp : Display
  /-- `KEY` (R33): the flag of key `k` is true while it is held down. -/
  key : Vector Bool 16
  /-- `MODE` (R40). -/
  mode : Mode
  /-- `TACC` (R43): the timer subsystem's accumulated time, in seconds. -/
  tacc : Rat
  /-- `CACC` (R44): the cycle scheduler's accumulated time, in seconds. -/
  cacc : Rat
  /-- The model's own: `FONT` and `RATE` (R46; log entry 3). No step writes it. -/
  cfg : Config
  /-- The model's own: how many free values have been drawn (R46, R11; log entry 4). -/
  draws : Nat
  /-- The model's own: the host events issued and not yet taken, oldest first (R46, 60_exceptions.md R220; log entry 1). -/
  inputs : List HostEvent
  /-- The model's own: `LoadImage` is still legal (60_exceptions.md R221; log entry 5). -/
  loadable : Bool
  deriving DecidableEq, Repr

/-- The state after `Reset` and before `LoadImage` (10_state.md R47) of a machine with the parameters `cfg`, with nothing
drawn and nothing pending. The memory list is empty: every byte is the reset image's (R30). -/
def State.resetWith (cfg : Config) : State where
  v := Vector.replicate 16 0
  i := 0
  pc := 0x200
  sp := 0
  stack := Vector.replicate 16 0
  dt := 0
  st := 0
  mem := []
  disp := Vector.replicate 2048 false
  key := Vector.replicate 16 false
  mode := .running
  tacc := 0
  cacc := 0
  cfg := cfg
  draws := 0
  inputs := []
  loadable := true

/-- The state after `Reset` (R47), with the parameters of log entry 3. -/
def State.reset : State := State.resetWith Config.standard

end Sys2Proof.Machine
end

