-- ==== Sys2Proof/Machine/Ops.lean ====
section
/-! DEFINITION. The named operations over memory, registers, the program counter, the return stack, the display and the mode,
taking a fault among them. Every instruction and every host event is written over these. -/

namespace Sys2Proof.Machine

/-! ### Memory (spec 20_memory.md) -/

/-- What a byte that nothing has written reads as: the reset image of 10_state.md R30, the font at 0x000 to 0x04F
(`FONT_BASE = 0x000`, R10) and zero elsewhere. -/
def unlistedByte (font : Font) (a : Nat) : Byte :=
  if h : a < 80 then font[a] else 0

/-- The byte at an address: the listed one, else the reset image's. -/
def lookupByte (font : Font) (a : Nat) : Memory → Byte
  | [] => unlistedByte font a
  | (b, w) :: m => if b = a then w else lookupByte font a m

/-- Puts a byte into the list at its place, addresses rising, in place of an earlier one for the same address. -/
def insertByte (a : Nat) (v : Byte) : Memory → Memory
  | [] => [(a, v)]
  | (b, w) :: m =>
    if b < a then (b, w) :: insertByte a v m
    else if b = a then (a, v) :: m
    else (a, v) :: (b, w) :: m

/-- Stores a byte in the canonical form: a byte equal to the reset image's is not listed. -/
def storeByte (font : Font) (a : Nat) (v : Byte) (m : Memory) : Memory :=
  if v = unlistedByte font a then m.filter (fun c => c.1 != a) else insertByte a v m

/-- The canonical form of a memory list: addresses strictly rising and at most 4095, and no entry equal to what the
unlisted address reads as. Equal memories are then equal lists. -/
def memoryWf (font : Font) : Memory → Bool
  | [] => true
  | (a, v) :: m => decide (a < 4096) && (v != unlistedByte font a) && m.all (fun c => decide (a < c.1)) && memoryWf font m

/-- `MemRead(a, 1)` (R62), the only read primitive. The spec defines it for `a <= 4095`; every caller has checked its range
(R64, R223), and above it this function answers 0, which nothing uses (log entry 7). -/
def State.memRead (s : State) (a : Nat) : Byte := lookupByte s.cfg.font a s.mem

/-- `MemWrite(a, 1, v)` (R63), the only write primitive. -/
def State.memWrite (s : State) (a : Nat) (v : Byte) : State :=
  { s with mem := storeByte s.cfg.font a v s.mem }

/-- Byte writes at ascending addresses from `a` on (R66). -/
def State.memWriteBlock (s : State) (a : Nat) : List Byte → State
  | [] => s
  | v :: vs => State.memWriteBlock (s.memWrite a v) (a + 1) vs

/-- R64: the `n` bytes from `base` on lie inside memory. With `n = 0` nothing is accessed and nothing is checked. The sum
is on natural numbers and never wraps (R61). -/
def dataRangeOk (base n : Nat) : Bool := n == 0 || decide (base + n ≤ 4096)

/-- The word at `PC`, first byte high (R65); `none` when `PC > 4094`, so that a byte of it is no memory address (R24, R214 a).
Any parity will do (R67). -/
def State.fetch (s : State) : Option Word :=
  if s.pc.toNat ≤ 4094 then some (wordOfBytes (s.memRead s.pc.toNat) (s.memRead (s.pc.toNat + 1))) else none

/-! ### Registers (spec 10_state.md) -/

/-- `V[x]` (R21). -/
def State.reg (s : State) (x : Nibble) : Byte := s.v[x.toNat]'x.isLt

/-- `V[x] <- b` (R21). No register is hardwired. -/
def State.setReg (s : State) (x : Nibble) (b : Byte) : State :=
  { s with v := s.v.set x.toNat b x.isLt }

/-- `VF`, the flag register, is `V[15]` (R22). -/
def regF : Nibble := 15

/-- `V[0] <- bs[0]`, `V[1] <- bs[1]`, and so on upwards from register `k` (46_familyF.md R198). -/
def State.setRegsFrom (s : State) (k : Nat) : List Byte → State
  | [] => s
  | b :: bs => State.setRegsFrom (s.setReg (BitVec.ofNat 4 k) b) (k + 1) bs

/-! ### The program counter (spec 10_state.md R25) -/

/-- `PC <- PC + 2`: the first thing every executed instruction does (00_scope.md R16). -/
def State.advance (s : State) : State := { s with pc := s.pc + 2 }

/-- `pc <- target`. -/
def State.jump (s : State) (target : Word) : State := { s with pc := target }

/-- A skip (41_skips.md R130): `PC <- PC + 2` once more when the condition holds. -/
def State.skipIf (s : State) (c : Bool) : State := if c then s.advance else s

/-! ### The return stack (spec 10_state.md R26, R27) -/

/-- A push: `STACK[SP] <- PC`, then `SP <- SP + 1` (40_family0_flow.md R124). Callers have checked `SP < 16`. -/
def State.push (s : State) : State :=
  if h : s.sp.toNat < 16 then { s with stack := s.stack.set s.sp.toNat s.pc h, sp := s.sp + 1 } else s

/-- A pop into `PC`: `SP <- SP - 1`, then `PC <- STACK[SP]`; the slot keeps its content (40_family0_flow.md R122). Callers
have checked `1 <= SP <= 16`. -/
def State.pop (s : State) : State :=
  if h : (s.sp - 1).toNat < 16 then { s with sp := s.sp - 1, pc := s.stack[(s.sp - 1).toNat] } else s

/-! ### Taking a fault (spec 60_exceptions.md R216) -/

/-- `MODE <- Halted(record)`: the one place a fault is taken. Nothing else changes, no state is saved and control goes
nowhere (R216). There is no return from it but `Reset` (R233). -/
def State.halt (s : State) (c : Cause) (faultPc : Word) (opcode : Option Word) : State :=
  { s with mode := .halted ⟨c, faultPc, opcode⟩ }

/-- `raise Fault(cause)` in decode or execute of the word `op` fetched at `PC` (R216): `PC` becomes `a + 2`, the record holds
`a` and `op`, and every other write is suppressed. -/
def State.raise (s : State) (c : Cause) (op : Word) : State := s.advance.halt c s.pc (some op)

/-- The fetch fault (R214 a): `PC` is not advanced, the record holds it and no word. -/
def State.raiseFetch (s : State) : State := s.halt .memoryOutOfRange s.pc none

/-- The run is over: `MODE` is `Halted` (R222). -/
def State.isHalted (s : State) : Bool :=
  match s.mode with
  | .halted _ => true
  | .running => false
  | .awaitingKey _ => false

/-! ### The display (spec 10_state.md R32, 44_draw.md) -/

/-- Every cell clear (40_family0_flow.md R121). -/
def clearDisplay : Display := Vector.replicate 2048 false

/-- `DISP[x][y]`, set or clear; a place outside the grid holds no set pixel. -/
def displayCell (d : Display) (x y : Nat) : Bool :=
  if h : x < 64 ∧ y < 32 then d[64 * y + x]'(by omega) else false

/-- A display being drawn on, with the collision result so far (the `c` of R170). -/
structure Canvas where
  disp : Display
  collision : Bool
  deriving DecidableEq, Repr

/-- Draws one 1 bit at `(x, y)` (R170 step 4): clipped outside the grid (R172), else it toggles the cell and collides if the
cell was set (R171, R173). -/
def plot (x y : Nat) (c : Canvas) : Canvas :=
  if h : x < 64 ∧ y < 32 then
    ⟨c.disp.set (64 * y + x) (!(c.disp[64 * y + x]'(by omega))) (by omega), c.collision || c.disp[64 * y + x]'(by omega)⟩
  else c

/-- Draws the bits of one sprite row, the `k`-th at column `x0 + k` being bit `7 - k` (R170, R171). -/
def drawBits (b : Byte) (x0 y : Nat) : List Nat → Canvas → Canvas
  | [], c => c
  | k :: ks, c => drawBits b x0 y ks (if b.getLsbD (7 - k) then plot (x0 + k) y c else c)

/-- Draws the rows of a sprite from row `y` on, downwards (R170). -/
def drawRows (x0 : Nat) : Nat → List Byte → Canvas → Canvas
  | _, [], c => c
  | y, b :: bs, c => drawRows x0 (y + 1) bs (drawBits b x0 y [0, 1, 2, 3, 4, 5, 6, 7] c)

end Sys2Proof.Machine
end

