-- ==== Sys2Proof/Machine/Operands.lean ====
section
/-! DEFINITION. Every operand form (spec 30_encoding.md R93): the immediates, the registers with the operands they name (a key
number, a glyph, a sprite's origin and rows), and the memory blocks at `I`. -/

namespace Sys2Proof.Machine

/-- `zext_16(NNN)` (R93): an address, never scaled and of any parity. -/
def zextAddr (nnn : Addr) : Word := nnn.setWidth 16

/-- `zext_16` of a register (46_familyF.md R194): never sign-extended. -/
def zextByte (b : Byte) : Word := b.setWidth 16

/-- `I` as the base of an access (20_memory.md R61): a natural number. -/
def State.base (s : State) : Nat := s.i.toNat

/-- `KEY[k]` for the key number `k` in a register (45_keyskip.md R180 to R182): `none` above 15. -/
def State.keyFlag (s : State) (k : Byte) : Option Bool :=
  if h : k.toNat < 16 then some s.key[k.toNat] else none

/-- The address of the glyph of a hex digit (46_familyF.md R195): `FONT_BASE + 5 * t` with `FONT_BASE = 0x000`. -/
def glyphAddress (t : Byte) : Word := 5 * zextByte t

/-- The column of a sprite's origin: `VX mod 64` (44_draw.md R170). -/
def spriteColumn (t : Byte) : Nat := t.toNat % 64

/-- The row of a sprite's origin: `VY mod 32` (44_draw.md R170). -/
def spriteRow (t : Byte) : Nat := t.toNat % 32

/-- The `n` bytes in memory from `base` on (20_memory.md R66). -/
def State.memBlock (s : State) (base : Nat) : Nat → List Byte
  | 0 => []
  | n + 1 => s.memRead base :: s.memBlock (base + 1) n

/-- `V[0]` to `V[x]`, inclusive (46_familyF.md R197). -/
def State.regBlock (s : State) (x : Nibble) : List Byte := s.v.toList.take (x.toNat + 1)

/-- How many registers `FX55` and `FX65` move: `X + 1` (46_familyF.md R197, R198). -/
def blockLength (x : Nibble) : Nat := x.toNat + 1

/-- The decimal digits of a byte: hundreds, tens, units (46_familyF.md R196). -/
def bcdDigits (t : Byte) : List Byte := [t / 100, t / 10 % 10, t % 10]

end Sys2Proof.Machine
end

