-- ==== Sys2Proof/Machine/Flags.lean ====
section
/-! DEFINITION. The flag computations (spec 10_state.md R22, 42_load_alu.md) and the one way an instruction of the ALU writes a
flag and a result (R141). -/

namespace Sys2Proof.Machine

/-- A flag as the byte `VF` gets: 1 or 0 (R22). -/
def flagByte (c : Bool) : Byte := if c then 1 else 0

/-- The carry of an 8-bit add (R148): the sum exceeds 255. -/
def carryOut (a b : Byte) : Bool := decide (a.toNat + b.toNat > 255)

/-- The borrow of `a - b` (R149, R151): `a < b`. -/
def borrowOut (a b : Byte) : Bool := decide (a.toNat < b.toNat)

/-- Bit 0 (R150). -/
def lowBit (a : Byte) : Bool := a.getLsbD 0

/-- Bit 7 (R152). -/
def highBit (a : Byte) : Bool := a.getLsbD 7

/-- Writes `VF` first and then `VX` (R141), both computed beforehand from latched operands: with `X = 15` the result stays
and the flag is lost. -/
def State.setFlagged (s : State) (x : Nibble) (flag : Bool) (result : Byte) : State :=
  (s.setReg regF (flagByte flag)).setReg x result

end Sys2Proof.Machine
end

