-- ==== Sys2Proof/Machine/Alu.lean ====
section
/-! DEFINITION. Register load, add immediate and the register-register ALU (spec 42_load_alu.md). Operands are read from the
state before any write (R141); all results are modulo 256 (R140). -/

namespace Sys2Proof.Machine

/-- `6XNN` LD VX, NN (R142). -/
def execLdVxNn (x : Nibble) (nn : Byte) (s : State) : Host.Outcome State Fault Refusal :=
  .next (s.advance.setReg x nn)

/-- `7XNN` ADD VX, NN (R143): no flag. -/
def execAddVxNn (x : Nibble) (nn : Byte) (s : State) : Host.Outcome State Fault Refusal :=
  .next (s.advance.setReg x (s.reg x + nn))

/-- `8XY0` LD VX, VY (R144). -/
def execLdVxVy (x y : Nibble) (s : State) : Host.Outcome State Fault Refusal :=
  .next (s.advance.setReg x (s.reg y))

/-- `8XY1` OR VX, VY (R145): no flag. -/
def execOrVxVy (x y : Nibble) (s : State) : Host.Outcome State Fault Refusal :=
  .next (s.advance.setReg x (s.reg x ||| s.reg y))

/-- `8XY2` AND VX, VY (R146): no flag. -/
def execAndVxVy (x y : Nibble) (s : State) : Host.Outcome State Fault Refusal :=
  .next (s.advance.setReg x (s.reg x &&& s.reg y))

/-- `8XY3` XOR VX, VY (R147): no flag. -/
def execXorVxVy (x y : Nibble) (s : State) : Host.Outcome State Fault Refusal :=
  .next (s.advance.setReg x (s.reg x ^^^ s.reg y))

/-- `8XY4` ADD VX, VY (R148): the flag is the carry. -/
def execAddVxVy (x y : Nibble) (s : State) : Host.Outcome State Fault Refusal :=
  .next (s.advance.setFlagged x (carryOut (s.reg x) (s.reg y)) (s.reg x + s.reg y))

/-- `8XY5` SUB VX, VY (R149): the flag is the borrow, 1 iff `VX < VY`. -/
def execSubVxVy (x y : Nibble) (s : State) : Host.Outcome State Fault Refusal :=
  .next (s.advance.setFlagged x (borrowOut (s.reg x) (s.reg y)) (s.reg x - s.reg y))

/-- `8XY6` SHR VX, VY (R150): shifts `VY`; the flag is its bit 0. -/
def execShrVxVy (x y : Nibble) (s : State) : Host.Outcome State Fault Refusal :=
  .next (s.advance.setFlagged x (lowBit (s.reg y)) (s.reg y >>> 1))

/-- `8XY7` SUBN VX, VY (R151): `VY - VX`; the flag is the borrow, 1 iff `VX > VY`. -/
def execSubnVxVy (x y : Nibble) (s : State) : Host.Outcome State Fault Refusal :=
  .next (s.advance.setFlagged x (borrowOut (s.reg y) (s.reg x)) (s.reg y - s.reg x))

/-- `8XYE` SHL VX, VY (R152): shifts `VY`; the flag is its bit 7. -/
def execShlVxVy (x y : Nibble) (s : State) : Host.Outcome State Fault Refusal :=
  .next (s.advance.setFlagged x (highBit (s.reg y)) (s.reg y <<< 1))

end Sys2Proof.Machine
end

