-- ==== Sys2Proof/Machine/Draw.lean ====
section
/-! DEFINITION. Draw-sprite (spec 44_draw.md R170). -/

namespace Sys2Proof.Machine

/-- The display and collision result of drawing the `n` sprite rows at `I` with the origin in the registers `x` and `y`
(R170 steps 1, 3 and 4). -/
def State.drawSprite (s : State) (x y n : Nibble) : Canvas :=
  drawRows (spriteColumn (s.reg x)) (spriteRow (s.reg y)) (s.memBlock s.base n.toNat) ⟨s.disp, false⟩

/-- `DXYN` DRW VX, VY, N (R170): the range check covers all `N` bytes (step 2), `VF` gets the collision last (step 5). -/
def execDrw (x y n : Nibble) (s : State) : Host.Outcome State Fault Refusal :=
  if dataRangeOk s.base n.toNat then
    .next ({ s.advance with disp := (s.drawSprite x y n).disp }.setReg regF (flagByte (s.drawSprite x y n).collision))
  else .next (s.raise .memoryOutOfRange (encode (.drw x y n)))

end Sys2Proof.Machine
end

