-- ==== Sys2Proof/Machine/FamilyF.lean ====
section
/-! DEFINITION. Family F: timers, key wait, index, font, BCD, block store and load (spec 46_familyF.md). -/

namespace Sys2Proof.Machine

/-- `FX07` LD VX, DT (R190). -/
def execLdVxDt (x : Nibble) (s : State) : Host.Outcome State Fault Refusal :=
  .next (s.advance.setReg x s.dt)

/-- `FX0A` LD VX, K (R191): the write of `VX` is the `KeyDown` event's (60_exceptions.md R229). -/
def execLdVxK (x : Nibble) (s : State) : Host.Outcome State Fault Refusal :=
  .next { s.advance with mode := .awaitingKey x }

/-- `FX15` LD DT, VX (R192). -/
def execLdDtVx (x : Nibble) (s : State) : Host.Outcome State Fault Refusal :=
  .next { s.advance with dt := s.reg x }

/-- `FX18` LD ST, VX (R193). -/
def execLdStVx (x : Nibble) (s : State) : Host.Outcome State Fault Refusal :=
  .next { s.advance with st := s.reg x }

/-- `FX1E` ADD I, VX (R194): modulo 65536, no flag. -/
def execAddIVx (x : Nibble) (s : State) : Host.Outcome State Fault Refusal :=
  .next { s.advance with i := s.i + zextByte (s.reg x) }

/-- `FX29` LD F, VX (R195): above 15, `draw_16()` is a free value (log entry 4). -/
def execLdFVx (x : Nibble) (s : State) : Host.Outcome State Fault Refusal :=
  if (s.reg x).toNat ≤ 15 then .next { s.advance with i := glyphAddress (s.reg x) }
  else .next { s.advance with i := Config.draw16 s.draws, draws := s.draws + 1 }

/-- `FX33` LD B, VX (R196): `I` does not move. -/
def execLdBVx (x : Nibble) (s : State) : Host.Outcome State Fault Refusal :=
  if dataRangeOk s.base 3 then .next (s.advance.memWriteBlock s.base (bcdDigits (s.reg x)))
  else .next (s.raise .memoryOutOfRange (encode (.ldBVx x)))

/-- `FX55` LD [I], VX (R197): `I` moves by `X + 1`, after the copy. -/
def execLdMemVx (x : Nibble) (s : State) : Host.Outcome State Fault Refusal :=
  if dataRangeOk s.base (blockLength x) then
    .next { s.advance.memWriteBlock s.base (s.regBlock x) with i := s.i + BitVec.ofNat 16 (blockLength x) }
  else .next (s.raise .memoryOutOfRange (encode (.ldMemVx x)))

/-- `FX65` LD VX, [I] (R198): `I` moves by `X + 1`, after the copy. -/
def execLdVxMem (x : Nibble) (s : State) : Host.Outcome State Fault Refusal :=
  if dataRangeOk s.base (blockLength x) then
    .next { s.advance.setRegsFrom 0 (s.memBlock s.base (blockLength x)) with i := s.i + BitVec.ofNat 16 (blockLength x) }
  else .next (s.raise .memoryOutOfRange (encode (.ldVxMem x)))

end Sys2Proof.Machine
end

