-- ==== Sys2Proof/Machine/Flow.lean ====
section
/-! DEFINITION. Families 0, 1 and 2: clear, return, jump, call (spec 40_family0_flow.md). A meaning starts at the state whose `PC`
is the instruction's own address `a`; `advance` makes it `a + 2` (R16). -/

namespace Sys2Proof.Machine

/-- `00E0` CLS (R121). -/
def execCls (s : State) : Host.Outcome State Fault Refusal :=
  .next { s.advance with disp := clearDisplay }

/-- `00EE` RET (R122); `StackUnderflow` iff `SP = 0` (R213). Above 16 the stack has no slot: log entry 6. -/
def execRet (s : State) : Host.Outcome State Fault Refusal :=
  if s.sp.toNat = 0 then .next (s.raise .stackUnderflow (encode .ret))
  else if s.sp.toNat ≤ 16 then .next s.advance.pop
  else .fault .stackPointerOutOfRange

/-- `1NNN` JP (R123). -/
def execJp (nnn : Addr) (s : State) : Host.Outcome State Fault Refusal :=
  .next (s.advance.jump (zextAddr nnn))

/-- `2NNN` CALL (R124); `StackOverflow` iff `SP = 16` (R212). Above 16 the stack has no slot: log entry 6. -/
def execCall (nnn : Addr) (s : State) : Host.Outcome State Fault Refusal :=
  if s.sp.toNat < 16 then .next (s.advance.push.jump (zextAddr nnn))
  else if s.sp.toNat = 16 then .next (s.raise .stackOverflow (encode (.call nnn)))
  else .fault .stackPointerOutOfRange

end Sys2Proof.Machine
end

