-- ==== Sys2Proof/Machine/IndexRandom.lean ====
section
/-! DEFINITION. Load index and random (spec 43_index_random.md). -/

namespace Sys2Proof.Machine

/-- `ANNN` LD I, NNN (R160). -/
def execLdI (nnn : Addr) (s : State) : Host.Outcome State Fault Refusal :=
  .next { s.advance with i := zextAddr nnn }

/-- `CXNN` RND VX, NN (R161): `draw_8()` is a free value, fresh at every execution (log entry 4). -/
def execRnd (x : Nibble) (nn : Byte) (s : State) : Host.Outcome State Fault Refusal :=
  .next { s.advance.setReg x (Config.draw8 s.draws &&& nn) with draws := s.draws + 1 }

end Sys2Proof.Machine
end

