-- ==== Sys2Proof/Machine/KeySkip.lean ====
section
/-! DEFINITION. Skips on the keypad latch (spec 45_keyskip.md). -/

namespace Sys2Proof.Machine

/-- `EX9E` SKP VX (R180); `KeyIndexOutOfRange` iff `VX > 15` (R182, R215). -/
def execSkp (x : Nibble) (s : State) : Host.Outcome State Fault Refusal :=
  match s.keyFlag (s.reg x) with
  | some down => .next (s.advance.skipIf down)
  | none => .next (s.raise .keyIndexOutOfRange (encode (.skp x)))

/-- `EXA1` SKNP VX (R181); `KeyIndexOutOfRange` iff `VX > 15` (R182, R215). -/
def execSknp (x : Nibble) (s : State) : Host.Outcome State Fault Refusal :=
  match s.keyFlag (s.reg x) with
  | some down => .next (s.advance.skipIf (!down))
  | none => .next (s.raise .keyIndexOutOfRange (encode (.sknp x)))

end Sys2Proof.Machine
end

