-- ==== Sys2Proof/Machine/Cycle.lean ====
section
/-! DEFINITION. `Cycle`: one invocation of fetch, decode and execute (spec 60_exceptions.md R223, R224). -/

namespace Sys2Proof.Machine

/-- A cycle in `Running` (R223): fetch, decode, execute; the first check that fails is the fault taken (R219). -/
def runCycle (s : State) : Host.Outcome State Fault Refusal :=
  match s.fetch with
  | none => .next s.raiseFetch
  | some op =>
    match decodeWord op with
    | none => .next (s.raise .unrecognizedOpcode op)
    | some i => exec i s

/-- Once a cycle runs, `LoadImage` is no longer "directly after" `Reset` (R221; log entry 5). -/
def State.closeLoad (s : State) : State := { s with loadable := false }

/-- `Cycle` in every mode: idle while a key is awaited (R224), and in `Halted` no cycle is issued, so nothing happens
(R222, R224). -/
def cycle (s : State) : Host.Outcome State Fault Refusal :=
  match s.mode with
  | .running => runCycle s.closeLoad
  | .awaitingKey _ => .next s
  | .halted _ => .next s

end Sys2Proof.Machine
end

