-- ==== Sys2Proof/Machine/Events.lean ====
section
/-! DEFINITION. The host's events (spec 60_exceptions.md R220 to R232, 70_reset_and_hazards.md R260, R264): each one atomic.
Time is exact (00_scope.md R13, D2). -/

namespace Sys2Proof.Machine

/-! ### The frame: scheduler, then timers -/

/-- `TICK`, 1/60 second (00_scope.md R8). -/
def tickInterval : Rat := 1 / 60

/-- `due = floor(CACC * RATE)` (R225 step 2), of an accumulator that already holds the frame's `dt`. -/
def dueCycles (rate cacc : Rat) : Nat := (cacc * rate).floor.toNat

/-- `n` cycles in sequence, stopping at a fault (R225 step 3, R216): no further cycle is issued in `Halted`. -/
def runCycles : Nat → State → Host.Outcome State Fault Refusal
  | 0, s => .next s
  | n + 1, s =>
    match cycle s with
    | .next t => if t.isHalted then .next t else runCycles n t
    | .fault r => .fault r
    | .refused r => .refused r

/-- One tick (R228): each timer loses 1 unless it is 0. -/
def State.tick (s : State) : State :=
  { s with dt := if s.dt = 0 then 0 else s.dt - 1, st := if s.st = 0 then 0 else s.st - 1 }

/-- While `TACC >= TICK`: subtract it and tick (R227 step 2). The first argument bounds the repetitions. -/
def timerLoop : Nat → State → State
  | 0, s => s
  | n + 1, s => if tickInterval ≤ s.tacc then timerLoop n ({ s with tacc := s.tacc - tickInterval }.tick) else s

/-- The timer update (R227): add `dt`, then subtract and tick repeatedly. `floor(TACC * 60)` repetitions are what the
loop can make. -/
def State.timerUpdate (s : State) (dt : Rat) : State :=
  timerLoop ((s.tacc + dt) * 60).floor.toNat { s with tacc := s.tacc + dt }

/-- What follows a batch of `due` cycles (R225 step 4, R226): nothing after a fault (R216 item 4), else the scheduler's
subtraction and the timer update. -/
def State.endFrame (s : State) (due : Nat) (dt : Rat) : State :=
  if s.isHalted then s else { s with cacc := s.cacc - due / s.cfg.rateQ }.timerUpdate dt

/-- `Frame(dt)` in `Running` or `AwaitingKey` (R225, R226). -/
def runFrame (dt : Rat) (s : State) : Host.Outcome State Fault Refusal :=
  match runCycles (dueCycles s.cfg.rateQ (s.cacc + dt)) { s with cacc := s.cacc + dt } with
  | .next t => .next (t.endFrame (dueCycles s.cfg.rateQ (s.cacc + dt)) dt)
  | .fault r => .fault r
  | .refused r => .refused r

/-- `Frame(dt)`: refused for `dt < 0` (R221), no effect in `Halted` (R222). -/
def frame (dt : Rat) (s : State) : Host.Outcome State Fault Refusal :=
  if dt < 0 then .refused .negativeFrameTime
  else if s.isHalted then .next s
  else runFrame dt s.closeLoad

/-! ### Keys -/

/-- `KEY[k] <- b`. -/
def State.setKey (s : State) (k : Nat) (b : Bool) : State :=
  if h : k < 16 then { s with key := s.key.set k b h } else s

/-- A key-down event ends a wait (R229 step 2): `V[x] <- k`, `MODE <- Running`. -/
def State.endWait (s : State) (k : Nat) : State :=
  match s.mode with
  | .awaitingKey x => { s.setReg x (BitVec.ofNat 8 k) with mode := .running }
  | .running => s
  | .halted _ => s

/-- `KeyDown(k)` (R229): refused for `k > 15` (R221), no effect in `Halted` (R222). -/
def keyDown (k : Nat) (s : State) : Host.Outcome State Fault Refusal :=
  if 15 < k then .refused .keyNumberOutOfRange
  else if s.isHalted then .next s
  else .next ((s.closeLoad.setKey k true).endWait k)

/-- `KeyUp(k)` (R230): refused for `k > 15` (R221), no effect in `Halted` (R222). It ends no wait. -/
def keyUp (k : Nat) (s : State) : Host.Outcome State Fault Refusal :=
  if 15 < k then .refused .keyNumberOutOfRange
  else if s.isHalted then .next s
  else .next (s.closeLoad.setKey k false)

/-! ### Reset, load, observations -/

/-- `Reset` (70_reset_and_hazards.md R260), in any mode. The parameters, the count of draws and the pending events are the
model's own fields and stay (log entry 8). -/
def State.resetEvent (s : State) : State :=
  { State.resetWith s.cfg with draws := s.draws, inputs := s.inputs }

/-- `LoadImage(bytes)` (70_reset_and_hazards.md R264): bytes past the 3584 that fit are discarded; refused unless directly
after `Reset` (R221), no effect in `Halted` (R222). -/
def loadImage (bytes : List Byte) (s : State) : Host.Outcome State Fault Refusal :=
  if !s.loadable then .refused .loadImageNotAfterReset
  else if s.isHalted then .next s
  else .next (s.closeLoad.memWriteBlock 0x200 (bytes.take 3584))

/-- The luminance byte of a cell (10_state.md R32). -/
def luminance (c : Bool) : Byte := if c then 255 else 0

/-- What `ReadDisplay` returns (R231, D22): 2048 bytes, the cell `(x, y)` at index `64 * y + x`. -/
def State.readDisplay (s : State) : List Byte := s.disp.toList.map luminance

/-- What `ReadStatus` returns (R232): `MODE`, the fault record included. -/
def State.readStatus (s : State) : Mode := s.mode

/-- One host event (R220). The two observations change nothing (R231, R232); what they return are the two functions above. -/
def takeEvent (e : HostEvent) (s : State) : Host.Outcome State Fault Refusal :=
  match e with
  | .reset => .next s.resetEvent
  | .loadImage bytes => loadImage bytes s
  | .frame dt => frame dt s
  | .keyDown k => keyDown k s
  | .keyUp k => keyUp k s
  | .readDisplay => .next s
  | .readStatus => .next s

/-! ### Placing an instruction for the next step -/

/-- A state whose next step is a cycle that fetches: nothing pending, `Running`, and a `PC` with two bytes of memory at it
(0x200, the entry point, if it had none). -/
def State.readyToFetch (s : State) : State :=
  { s with inputs := [], mode := .running, pc := if s.pc.toNat ≤ 4094 then s.pc else 0x200 }

/-- Stores a word where the next instruction is fetched, high byte first (20_memory.md R65). -/
def State.placeWord (s : State) (op : Word) : State :=
  s.memWriteBlock s.pc.toNat [firstByte op, secondByte op]

end Sys2Proof.Machine
end

