-- ==== Sys2Proof/Machine/Step.lean ====
section
/-! DEFINITION. One step of the machine: the oldest pending host event if there is one (spec 60_exceptions.md R220), else one
`Cycle` (R223, R224; R237 allows the free `Cycle`, log entry 1). -/

namespace Sys2Proof.Machine

/-- One step (log entry 1). -/
def step (s : State) : Host.Outcome State Fault Refusal :=
  match s.inputs with
  | e :: rest => takeEvent e { s with inputs := rest }
  | [] => cycle s

/-- `s` with the instruction whose bits are `w` stored where `step` fetches its next instruction, numbered as
spec/opcode_table.json numbers them: the one 16-bit word, the bits from `nbits` up zero. For a state that would not fetch
next, it also removes what stands in the way (log entry 2). -/
def State.withFetchWord (s : State) (nbits w : Nat) : State :=
  s.readyToFetch.placeWord (BitVec.ofNat 16 (w % 2 ^ nbits))

end Sys2Proof.Machine
end

