-- ==== Sys2Proof/Safety.lean ====
section
/-! DEFINITION. What counts as a safe run, in the terms statements use: the invariant of spec 10_state.md R45, the end of a run
(60_exceptions.md R233, D26), a sequence of steps, the cycles of a sequence of frames, and what "unchanged but for" means. -/

namespace Sys2Proof.Machine

/-- The invariants of R45 that a type does not already hold, and the canonical form of memory. (R45 b is the type of the
display; R45 f is a statement about steps.) -/
structure State.Inv (s : State) : Prop where
  /-- The memory list is canonical: rising addresses of at most 4095, no entry equal to the reset image. -/
  memory : memoryWf s.cfg.font s.mem = true
  /-- R45 (a) -/
  depth : s.sp.toNat ≤ 16
  /-- R45 (d) -/
  counter : s.pc.toNat ≤ 4098
  /-- R45 (e) -/
  returns : ∀ k : Fin 16, k.val < s.sp.toNat → s.stack[k].toNat ≤ 4096
  /-- R45 (c) for `TACC` -/
  timer : 0 ≤ s.tacc ∧ s.tacc < tickInterval
  /-- R45 (c) for `CACC`, lower bound -/
  cycles : 0 ≤ s.cacc
  /-- R45 (c) for `CACC`, upper bound, in modes other than `Halted` -/
  cyclesBound : s.isHalted = false → s.cacc < 1 / s.cfg.rateQ

/-- The suggested `END_OF_RUN` (D26): `Running`, and the instruction at `PC` is a jump to itself. It is a choice of a claim;
no step depends on it. A `Halted` state never satisfies it. -/
def State.atSelfJump (s : State) : Bool :=
  s.mode == .running && (s.fetch.bind decodeWord == some (.jp (s.pc.setWidth 12)))

/-- `t` differs from `s` at most in the general registers and the program counter. -/
def State.OnlyRegsAndPc (s t : State) : Prop := t = { s with v := t.v, pc := t.pc }

/-- `t` differs from `s` at most in the program counter. -/
def State.OnlyPc (s t : State) : Prop := t = { s with pc := t.pc }

/-- Every general register but those in `written` holds in `t` what it held in `s`. -/
def State.RegsKeptBut (s t : State) (written : List Nibble) : Prop :=
  ∀ r : Nibble, r ∉ written → t.reg r = s.reg r

/-- Every byte of memory but the `n` from `base` on reads in `t` as it read in `s`. -/
def State.BytesKeptBut (s t : State) (base n : Nat) : Prop :=
  ∀ a : Nat, (a < base ∨ base + n ≤ a) → t.memRead a = s.memRead a

/-- Every byte of memory reads in `t` as it read in `s`. -/
def State.BytesKept (s t : State) : Prop := ∀ a : Nat, t.memRead a = s.memRead a

/-- `n` steps in sequence, as far as each answers a next state. -/
def runSteps : Nat → State → Host.Outcome State Fault Refusal
  | 0, s => .next s
  | n + 1, s =>
    match step s with
    | .next t => runSteps n t
    | .fault r => .fault r
    | .refused r => .refused r

/-- How many cycles each frame of a run issues (60_exceptions.md R225), from the accumulated time `acc` on, when no frame
faults: the accumulator after a frame is what step 4 of R225 leaves. -/
def batchSizes (rate : Rat) : Rat → List Rat → List Nat
  | _, [] => []
  | acc, dt :: dts =>
    dueCycles rate (acc + dt) :: batchSizes rate (acc + dt - dueCycles rate (acc + dt) / rate) dts

/-- The sprite with its origin at `(x0, y0)` and the rows `rows` has a 1 bit on the place `(x, y)` (44_draw.md R171): row
`y - y0` of it, bit `7 - (x - x0)`. With `x < 64` and `y < 32` the place is visible, and the set of these places is the `S`
of R173. -/
def spriteHits (x0 y0 : Nat) (rows : List Byte) (x y : Nat) : Bool :=
  decide (x0 ≤ x) && decide (x < x0 + 8) && decide (y0 ≤ y) &&
    (match rows[y - y0]? with
     | some b => b.getLsbD (7 - (x - x0))
     | none => false)

end Sys2Proof.Machine
end

