-- ==== Sys2Proof/Certificates/Slice0/Obligations.lean ====
section
/-! DEFINITION. The statements for the provers, from the numbered rules of spec/. A statement about an instruction is about
`exec`, whose state has `PC` at the instruction's own address `a` (00_scope.md R16); a statement about a host event is about
`step` of a state in which that event is the oldest one pending (log entry 1). A rule that spec/ marks as its own decision
(D<n>, C<n>) or inference is named so at the statement that rests on it (log entry 12); such a statement is 'derived' in
OBLIGATIONS.json. -/

open Sys2Proof Sys2Proof.Machine

/-! ### Encoding -/

/-- Words written out from the patterns of 30_encoding.md R96: `12 34`, `8A B4`, `D1 2F`, `F9 65`, `E2 9E` and `00 EE` decode
to the instruction they stand for, `00 00`, `51 21` and `B3 00` to none. -/
def Obligations.SampleWordsDecode : Prop :=
  decodeBytes [0x12, 0x34] = .instr (.jp 0x234) [] ∧
  decodeBytes [0x8A, 0xB4] = .instr (.addVxVy 0xA 0xB) [] ∧
  decodeBytes [0xD1, 0x2F] = .instr (.drw 1 2 0xF) [] ∧
  decodeBytes [0xF9, 0x65] = .instr (.ldVxMem 9) [] ∧
  decodeBytes [0xE2, 0x9E] = .instr (.skp 2) [] ∧
  decodeBytes [0x00, 0xEE] = .instr .ret [] ∧
  decodeBytes [0x00, 0x00] = .unrecognized 0x0000 ∧
  decodeBytes [0x51, 0x21] = .unrecognized 0x5121 ∧
  decodeBytes [0xB3, 0x00] = .unrecognized 0xB300

/-- Decoding the word, or the bytes, of any well-formed instruction gives that instruction back, with every operand (R94,
R96). -/
def Obligations.DecodeOfEncode : Prop :=
  ∀ i : Instr, i.wellFormed = true →
    decodeWord (encode i) = some i ∧ ∀ rest : List Byte, decodeBytes (encodeBytes i ++ rest) = .instr i rest

/-- A word that decodes to an instruction is that instruction's word: each instruction has one word. -/
def Obligations.EncodeOfDecode : Prop :=
  ∀ (op : Word) (i : Instr), decodeWord op = some i → encode i = op

/-- 30_encoding.md R96: the table has 33 rows, no two overlap, and a word is decoded to an instruction of a row iff
`op AND mask = match`. -/
def Obligations.OpcodeRowsDecide : Prop :=
  rowInstrs.length = 33 ∧
  (∀ j ∈ rowInstrs, ∀ k ∈ rowInstrs, j ≠ k → ∀ op : Word,
    ¬ (op &&& (opcodeRow j).mask = (opcodeRow j).pattern ∧ op &&& (opcodeRow k).mask = (opcodeRow k).pattern)) ∧
  (∀ op : Word, ∀ j ∈ rowInstrs,
    (op &&& (opcodeRow j).mask = (opcodeRow j).pattern ↔ ∃ i, decodeWord op = some i ∧ opcodeRow i = opcodeRow j)) ∧
  (∀ i : Instr, ∃ j ∈ rowInstrs, opcodeRow i = opcodeRow j)

/-- 30_encoding.md R97 (its list is the spec's own inference from R94): the unrecognized words are exactly its classes (a) to
(g). -/
def Obligations.UnrecognizedWordsExactly : Prop :=
  ∀ op : Word, decodeWord op = none ↔
    (fieldF op = 0x0 ∧ op ≠ 0x00E0 ∧ op ≠ 0x00EE) ∨
    (fieldF op = 0x5 ∧ fieldN op ≠ 0) ∨
    (fieldF op = 0x8 ∧ fieldN op ∈ ([0x8, 0x9, 0xA, 0xB, 0xC, 0xD, 0xF] : List Nibble)) ∨
    (fieldF op = 0x9 ∧ fieldN op ≠ 0) ∨
    fieldF op = 0xB ∨
    (fieldF op = 0xE ∧ fieldNN op ≠ 0x9E ∧ fieldNN op ≠ 0xA1) ∨
    (fieldF op = 0xF ∧
      fieldNN op ∉ ([0x07, 0x0A, 0x15, 0x18, 0x1E, 0x29, 0x33, 0x55, 0x65] : List Byte))

/-! ### Reset and the invariant -/

/-- 10_state.md R47: every field after `Reset`, whatever the parameters. The source fixes memory, `PC` and `SP`; the other
values are the spec's decision D5. -/
def Obligations.ResetStateFields : Prop :=
  ∀ (cfg : Config) (s : State), s = State.resetWith cfg →
    (∀ r : Nibble, s.reg r = 0) ∧ s.i = 0 ∧ s.pc = 0x200 ∧ s.sp = 0 ∧ (∀ k : Fin 16, s.stack[k] = 0) ∧
    s.dt = 0 ∧ s.st = 0 ∧ (∀ x y : Nat, displayCell s.disp x y = false) ∧ (∀ k : Fin 16, s.key[k] = false) ∧
    s.mode = .running ∧ s.tacc = 0 ∧ s.cacc = 0 ∧
    (∀ a : Fin 80, s.memRead a = cfg.font[a]) ∧ (∀ a : Nat, 80 ≤ a → s.memRead a = 0)

/-- 70_reset_and_hazards.md R260: a `Reset` event, in any mode, puts every field to its reset value (R47, decision D5);
`FONT` is the parameter the state carries (log entry 3). -/
def Obligations.ResetEventResets : Prop :=
  ∀ (s : State) (rest : List HostEvent), s.inputs = .reset :: rest →
    ∃ t, step s = .next t ∧
      (∀ r : Nibble, t.reg r = 0) ∧ t.i = 0 ∧ t.pc = 0x200 ∧ t.sp = 0 ∧ (∀ k : Fin 16, t.stack[k] = 0) ∧
      t.dt = 0 ∧ t.st = 0 ∧ (∀ x y : Nat, displayCell t.disp x y = false) ∧ (∀ k : Fin 16, t.key[k] = false) ∧
      t.mode = .running ∧ t.tacc = 0 ∧ t.cacc = 0 ∧
      (∀ a : Fin 80, t.memRead a = s.cfg.font[a]) ∧ (∀ a : Nat, 80 ≤ a → t.memRead a = 0)

/-- The reset state meets the invariant of 10_state.md R45 (the spec's own inference) and the canonical form of memory,
whatever the parameters. -/
def Obligations.ResetMeetsInvariant : Prop :=
  (∀ cfg : Config, (State.resetWith cfg).Inv) ∧ State.reset.Inv

/-- 10_state.md R45 (the spec's own inference) and the canonical form of memory: every step that answers a next state keeps
them, a cycle or any host event, whole frames included. -/
def Obligations.StepKeepsInvariant : Prop :=
  ∀ s t : State, s.Inv → step s = .next t → t.Inv

/-- 70_reset_and_hazards.md R262 (the spec's own inference from R30 and R97): after `Reset` alone the two bytes at 0x200 are
zero and the first cycle halts. -/
def Obligations.ResetWithoutImageHalts : Prop :=
  ∀ (cfg : Config) (s : State), s = State.resetWith cfg →
    s.memRead 0x200 = 0 ∧ s.memRead 0x201 = 0 ∧
    ∃ t, step s = .next t ∧ t.mode = .halted ⟨.unrecognizedOpcode, 0x200, some 0x0000⟩

/-! ### The step -/

/-- 60_exceptions.md R223: with no event pending, in `Running`, when the bytes at `PC` decode to an instruction, the step is
that instruction's `exec`; all the step adds is that an image can no longer be loaded (the model's own field, log entry 5).
That a step with nothing pending is a cycle is the model's choice (log entry 1). -/
def Obligations.StepRunsDecodedInstruction : Prop :=
  ∀ (s : State) (i : Instr), s.inputs = [] → s.mode = .running → s.pc.toNat ≤ 4094 →
    decodeBytes [s.memRead s.pc.toNat, s.memRead (s.pc.toNat + 1)] = .instr i [] → i.wellFormed = true →
    step s = exec i { s with loadable := false }

/-- 60_exceptions.md R211: a word that is no instruction halts the machine; zeroed memory is such a word. That a step with
nothing pending is a cycle, and that it ends the time in which an image can be loaded (the model's own field), are the
model's choices (log entries 1 and 5). -/
def Obligations.UnrecognizedWordFaults : Prop :=
  (∀ (s : State) (op : Word), s.inputs = [] → s.mode = .running → s.pc.toNat ≤ 4094 →
    decodeBytes [s.memRead s.pc.toNat, s.memRead (s.pc.toNat + 1)] = .unrecognized op →
    step s = .next { s with pc := s.pc + 2, mode := .halted ⟨.unrecognizedOpcode, s.pc, some op⟩, loadable := false }) ∧
  (∀ op : Word, decodeBytes [firstByte op, secondByte op] = .unrecognized op ↔
    ∀ j ∈ rowInstrs, op &&& (opcodeRow j).mask ≠ (opcodeRow j).pattern) ∧
  decodeBytes [0, 0] = .unrecognized 0

/-- 60_exceptions.md R214 (decisions D10, D11): (a) a fetch with `PC > 4094`; (b) `DXYN`, `FX33`, `FX55` and `FX65` when
their range passes 4095. That a step with nothing pending is a cycle, and that it clears the model's own load flag, are the
model's choices (log entries 1 and 5); the word in the record is written with `encode` (log entry 9). -/
def Obligations.OutOfRangeFaults : Prop :=
  (∀ s : State, s.inputs = [] → s.mode = .running → 4094 < s.pc.toNat →
    step s = .next { s with mode := .halted ⟨.memoryOutOfRange, s.pc, none⟩, loadable := false }) ∧
  (∀ (s : State) (x y n : Nibble), 1 ≤ n.toNat → 4095 < s.i.toNat + n.toNat - 1 →
    exec (.drw x y n) s =
      .next { s with pc := s.pc + 2, mode := .halted ⟨.memoryOutOfRange, s.pc, some (encode (.drw x y n))⟩ }) ∧
  (∀ (s : State) (x : Nibble), 4095 < s.i.toNat + 2 →
    exec (.ldBVx x) s =
      .next { s with pc := s.pc + 2, mode := .halted ⟨.memoryOutOfRange, s.pc, some (encode (.ldBVx x))⟩ }) ∧
  (∀ (s : State) (x : Nibble), 4095 < s.i.toNat + x.toNat →
    exec (.ldMemVx x) s =
      .next { s with pc := s.pc + 2, mode := .halted ⟨.memoryOutOfRange, s.pc, some (encode (.ldMemVx x))⟩ } ∧
    exec (.ldVxMem x) s =
      .next { s with pc := s.pc + 2, mode := .halted ⟨.memoryOutOfRange, s.pc, some (encode (.ldVxMem x))⟩ })

/-- 60_exceptions.md R212: `2NNN` with `SP = 16`, and nothing else, takes `StackOverflow`. -/
def Obligations.StackOverflowFault : Prop :=
  (∀ (s : State) (nnn : Addr), s.sp = 16 →
    exec (.call nnn) s =
      .next { s with pc := s.pc + 2, mode := .halted ⟨.stackOverflow, s.pc, some (encode (.call nnn))⟩ }) ∧
  (∀ (i : Instr) (s t : State) (r : FaultRecord), s.isHalted = false → exec i s = .next t → t.mode = .halted r →
    r.cause = .stackOverflow → (∃ nnn, i = .call nnn) ∧ s.sp = 16)

/-- 60_exceptions.md R213: `00EE` with `SP = 0`, and nothing else, takes `StackUnderflow`. -/
def Obligations.StackUnderflowFault : Prop :=
  (∀ s : State, s.sp = 0 →
    exec .ret s = .next { s with pc := s.pc + 2, mode := .halted ⟨.stackUnderflow, s.pc, some 0x00EE⟩ }) ∧
  (∀ (i : Instr) (s t : State) (r : FaultRecord), s.isHalted = false → exec i s = .next t → t.mode = .halted r →
    r.cause = .stackUnderflow → i = .ret ∧ s.sp = 0)

/-- 60_exceptions.md R215 (decision D14): `EX9E` and `EXA1` with `VX > 15`, and nothing else, take `KeyIndexOutOfRange`. -/
def Obligations.KeyIndexFault : Prop :=
  (∀ (s : State) (x : Nibble), 15 < (s.reg x).toNat →
    exec (.skp x) s =
      .next { s with pc := s.pc + 2, mode := .halted ⟨.keyIndexOutOfRange, s.pc, some (encode (.skp x))⟩ } ∧
    exec (.sknp x) s =
      .next { s with pc := s.pc + 2, mode := .halted ⟨.keyIndexOutOfRange, s.pc, some (encode (.sknp x))⟩ }) ∧
  (∀ (i : Instr) (s t : State) (r : FaultRecord), s.isHalted = false → exec i s = .next t → t.mode = .halted r →
    r.cause = .keyIndexOutOfRange → ∃ x, (i = .skp x ∨ i = .sknp x) ∧ 15 < (s.reg x).toNat)

/-- 60_exceptions.md R216, R219 (decision D13): a fault taken by an instruction changes `PC` to `a + 2` and the mode and
nothing else, its record holds `a` and the instruction's word (`encode`: log entry 9), and only the eight instructions named
take one. -/
def Obligations.FaultsArePrecise : Prop :=
  ∀ (i : Instr) (s t : State) (r : FaultRecord), s.isHalted = false → exec i s = .next t → t.mode = .halted r →
    t = { s with pc := s.pc + 2, mode := .halted ⟨r.cause, s.pc, some (encode i)⟩ } ∧
    ((∃ nnn, i = .call nnn) ∨ i = .ret ∨ (∃ x y n, i = .drw x y n) ∨
      ∃ x, i = .skp x ∨ i = .sknp x ∨ i = .ldBVx x ∨ i = .ldMemVx x ∨ i = .ldVxMem x)

/-- 60_exceptions.md R222, R224 (decisions D28, D20; log entry 10): with no event pending, a step changes nothing while a key
is awaited or in `Halted`. -/
def Obligations.IdleAndHaltedCycles : Prop :=
  (∀ (s : State) (x : Nibble), s.inputs = [] → s.mode = .awaitingKey x → step s = .next s) ∧
  (∀ (s : State) (r : FaultRecord), s.inputs = [] → s.mode = .halted r → step s = .next s)

/-- 60_exceptions.md R222 (decision D28): in `Halted` every event the host may issue, but `Reset`, leaves the whole Machine
State as it is (it is only taken from what is pending). -/
def Obligations.HaltedAbsorbsEvents : Prop :=
  ∀ (s : State) (r : FaultRecord) (e : HostEvent) (rest : List HostEvent), s.mode = .halted r → s.inputs = e :: rest →
    e.wellFormed = true → e ≠ .reset → ((∃ bytes, e = .loadImage bytes) → s.loadable = true) →
    step s = .next { s with inputs := rest }

/-- 60_exceptions.md R221 (decisions D23, D29; log entry 5): a negative `dt`, a key number above 15 and a `LoadImage` that is
not directly after `Reset` are refused; a frame, a key event and a load outside `Halted`, and a cycle in `Running`, each end
the time in which a load is allowed (an idle cycle and an observation do not). -/
def Obligations.EventsRefused : Prop :=
  (∀ (s : State) (dt : Rat) (rest : List HostEvent), s.inputs = .frame dt :: rest → dt < 0 →
    step s = .refused .negativeFrameTime) ∧
  (∀ (s : State) (k : Nat) (rest : List HostEvent), s.inputs = .keyDown k :: rest → 15 < k →
    step s = .refused .keyNumberOutOfRange) ∧
  (∀ (s : State) (k : Nat) (rest : List HostEvent), s.inputs = .keyUp k :: rest → 15 < k →
    step s = .refused .keyNumberOutOfRange) ∧
  (∀ (s : State) (bytes : List Byte) (rest : List HostEvent), s.inputs = .loadImage bytes :: rest → s.loadable = false →
    step s = .refused .loadImageNotAfterReset) ∧
  (∀ (s t : State) (e : HostEvent) (rest : List HostEvent), s.isHalted = false → s.inputs = e :: rest → e ≠ .reset →
    e ≠ .readDisplay → e ≠ .readStatus → step s = .next t → t.loadable = false) ∧
  (∀ s t : State, s.mode = .running → s.inputs = [] → step s = .next t → t.loadable = false)

/-! ### Families 0, 1 and 2 -/

/-- 40_family0_flow.md R121: `00E0` clears every cell, and changes nothing else but `PC`. -/
def Obligations.ClearDisplay : Prop :=
  ∀ s : State, ∃ t, exec .cls s = .next t ∧ t.pc = s.pc + 2 ∧ (∀ x y : Nat, displayCell t.disp x y = false) ∧
    t = { s with disp := t.disp, pc := t.pc } ∧ s.RegsKeptBut t [] ∧ s.BytesKept t

/-- 40_family0_flow.md R122: `00EE` with `1 <= SP <= 16` pops the most recent return address into `PC`, the slot keeping its
content; with `SP = 0` it takes `StackUnderflow`, and changes nothing else but `PC`. -/
def Obligations.ReturnPops : Prop :=
  (∀ (s : State) (k : Fin 16), s.sp.toNat = k.val + 1 →
    ∃ t, exec .ret s = .next t ∧ t.sp.toNat = k.val ∧ t.pc = s.stack[k] ∧
      t = { s with sp := t.sp, pc := t.pc } ∧ s.RegsKeptBut t [] ∧ s.BytesKept t) ∧
  (∀ s : State, s.sp = 0 →
    exec .ret s = .next { s with pc := s.pc + 2, mode := .halted ⟨.stackUnderflow, s.pc, some 0x00EE⟩ })

/-- 40_family0_flow.md R123: `1NNN` sets `PC` to `NNN` and changes nothing else. -/
def Obligations.JumpSetsPc : Prop :=
  ∀ (s : State) (nnn : Addr), ∃ t, exec (.jp nnn) s = .next t ∧ t.pc.toNat = nnn.toNat ∧
    s.OnlyPc t ∧ s.RegsKeptBut t [] ∧ s.BytesKept t

/-- 40_family0_flow.md R124: `2NNN` with `SP < 16` pushes `a + 2` and jumps; with `SP = 16` it takes `StackOverflow`, and
changes nothing else but `PC`. -/
def Obligations.CallPushes : Prop :=
  (∀ (s : State) (nnn : Addr) (k : Fin 16), s.sp.toNat = k.val →
    ∃ t, exec (.call nnn) s = .next t ∧ t.sp.toNat = k.val + 1 ∧ t.pc.toNat = nnn.toNat ∧
      t.stack[k] = s.pc + 2 ∧ (∀ j : Fin 16, j ≠ k → t.stack[j] = s.stack[j]) ∧
      t = { s with stack := t.stack, sp := t.sp, pc := t.pc } ∧ s.RegsKeptBut t [] ∧ s.BytesKept t) ∧
  (∀ (s : State) (nnn : Addr), s.sp = 16 →
    exec (.call nnn) s =
      .next { s with pc := s.pc + 2, mode := .halted ⟨.stackOverflow, s.pc, some (encode (.call nnn))⟩ })

/-- 40_family0_flow.md R122, R124: a return from a state with the stack a call left continues after the call, at its depth.
-/
def Obligations.CallThenReturn : Prop :=
  ∀ (s t u : State) (nnn : Addr), s.sp.toNat < 16 → exec (.call nnn) s = .next t → u.stack = t.stack → u.sp = t.sp →
    ∃ w, exec .ret u = .next w ∧ w.pc = s.pc + 2 ∧ w.sp = s.sp

/-! ### Skips on registers -/

/-- 41_skips.md R131, R132: the skips on an immediate; they change nothing but `PC`. -/
def Obligations.SkipOnImmediate : Prop :=
  (∀ (s : State) (x : Nibble) (nn : Byte), ∃ t, exec (.seVxNn x nn) s = .next t ∧
    t.pc = (if s.reg x = nn then s.pc + 4 else s.pc + 2) ∧ s.OnlyPc t ∧ s.RegsKeptBut t [] ∧ s.BytesKept t) ∧
  (∀ (s : State) (x : Nibble) (nn : Byte), ∃ t, exec (.sneVxNn x nn) s = .next t ∧
    t.pc = (if s.reg x ≠ nn then s.pc + 4 else s.pc + 2) ∧ s.OnlyPc t ∧ s.RegsKeptBut t [] ∧ s.BytesKept t)

/-- 41_skips.md R133, R134: the skips on two registers; they change nothing but `PC`. -/
def Obligations.SkipOnRegisters : Prop :=
  (∀ (s : State) (x y : Nibble), ∃ t, exec (.seVxVy x y) s = .next t ∧
    t.pc = (if s.reg x = s.reg y then s.pc + 4 else s.pc + 2) ∧ s.OnlyPc t ∧ s.RegsKeptBut t [] ∧ s.BytesKept t) ∧
  (∀ (s : State) (x y : Nibble), ∃ t, exec (.sneVxVy x y) s = .next t ∧
    t.pc = (if s.reg x ≠ s.reg y then s.pc + 4 else s.pc + 2) ∧ s.OnlyPc t ∧ s.RegsKeptBut t [] ∧ s.BytesKept t)

/-! ### Load, add and the ALU -/

/-- 42_load_alu.md R142, R143: load immediate, and add immediate modulo 256 with no flag. -/
def Obligations.LoadAndAddImmediate : Prop :=
  (∀ (s : State) (x : Nibble) (nn : Byte), ∃ t, exec (.ldVxNn x nn) s = .next t ∧ t.pc = s.pc + 2 ∧ t.reg x = nn ∧
    s.OnlyRegsAndPc t ∧ s.RegsKeptBut t [x] ∧ s.BytesKept t) ∧
  (∀ (s : State) (x : Nibble) (nn : Byte), ∃ t, exec (.addVxNn x nn) s = .next t ∧ t.pc = s.pc + 2 ∧
    (t.reg x).toNat = ((s.reg x).toNat + nn.toNat) % 256 ∧
    s.OnlyRegsAndPc t ∧ s.RegsKeptBut t [x] ∧ s.BytesKept t)

/-- 42_load_alu.md R144 to R147: copy, or, and, exclusive or; no flag is written. -/
def Obligations.CopyAndLogic : Prop :=
  (∀ (s : State) (x y : Nibble), ∃ t, exec (.ldVxVy x y) s = .next t ∧ t.pc = s.pc + 2 ∧ t.reg x = s.reg y ∧
    s.OnlyRegsAndPc t ∧ s.RegsKeptBut t [x] ∧ s.BytesKept t) ∧
  (∀ (s : State) (x y : Nibble), ∃ t, exec (.orVxVy x y) s = .next t ∧ t.pc = s.pc + 2 ∧
    t.reg x = s.reg x ||| s.reg y ∧ s.OnlyRegsAndPc t ∧ s.RegsKeptBut t [x] ∧ s.BytesKept t) ∧
  (∀ (s : State) (x y : Nibble), ∃ t, exec (.andVxVy x y) s = .next t ∧ t.pc = s.pc + 2 ∧
    t.reg x = s.reg x &&& s.reg y ∧ s.OnlyRegsAndPc t ∧ s.RegsKeptBut t [x] ∧ s.BytesKept t) ∧
  (∀ (s : State) (x y : Nibble), ∃ t, exec (.xorVxVy x y) s = .next t ∧ t.pc = s.pc + 2 ∧
    t.reg x = s.reg x ^^^ s.reg y ∧ s.OnlyRegsAndPc t ∧ s.RegsKeptBut t [x] ∧ s.BytesKept t)

/-- 42_load_alu.md R148: the sum of the two latched operands modulo 256 in `VX`, and the carry in `VF` unless `VF` is
`VX`. (The operands are latched first: R148 writes it so; that this is the reading of `Y = 15` is decision D8, R141.) -/
def Obligations.AddWithCarry : Prop :=
  ∀ (s : State) (x y : Nibble), ∃ t, exec (.addVxVy x y) s = .next t ∧ t.pc = s.pc + 2 ∧
    (t.reg x).toNat = ((s.reg x).toNat + (s.reg y).toNat) % 256 ∧
    (x ≠ regF → t.reg regF = if 255 < (s.reg x).toNat + (s.reg y).toNat then 1 else 0) ∧
    s.OnlyRegsAndPc t ∧ s.RegsKeptBut t [x, regF] ∧ s.BytesKept t

/-- 42_load_alu.md R149: `VX - VY` modulo 256 in `VX`, and in `VF`, unless it is `VX`, 1 iff `VX < VY` before. -/
def Obligations.SubtractWithBorrow : Prop :=
  ∀ (s : State) (x y : Nibble), ∃ t, exec (.subVxVy x y) s = .next t ∧ t.pc = s.pc + 2 ∧
    (t.reg x).toNat = ((s.reg x).toNat + 256 - (s.reg y).toNat) % 256 ∧
    (x ≠ regF → t.reg regF = if (s.reg x).toNat < (s.reg y).toNat then 1 else 0) ∧
    s.OnlyRegsAndPc t ∧ s.RegsKeptBut t [x, regF] ∧ s.BytesKept t

/-- 42_load_alu.md R151: `VY - VX` modulo 256 in `VX`, and in `VF`, unless it is `VX`, 1 iff `VX > VY` before. -/
def Obligations.ReverseSubtractWithBorrow : Prop :=
  ∀ (s : State) (x y : Nibble), ∃ t, exec (.subnVxVy x y) s = .next t ∧ t.pc = s.pc + 2 ∧
    (t.reg x).toNat = ((s.reg y).toNat + 256 - (s.reg x).toNat) % 256 ∧
    (x ≠ regF → t.reg regF = if (s.reg y).toNat < (s.reg x).toNat then 1 else 0) ∧
    s.OnlyRegsAndPc t ∧ s.RegsKeptBut t [x, regF] ∧ s.BytesKept t

/-- 42_load_alu.md R150: half of `VY` in `VX`, and its bit 0 in `VF` unless that is `VX`. -/
def Obligations.ShiftRight : Prop :=
  ∀ (s : State) (x y : Nibble), ∃ t, exec (.shrVxVy x y) s = .next t ∧ t.pc = s.pc + 2 ∧
    (t.reg x).toNat = (s.reg y).toNat / 2 ∧
    (x ≠ regF → (t.reg regF).toNat = (s.reg y).toNat % 2) ∧
    s.OnlyRegsAndPc t ∧ s.RegsKeptBut t [x, regF] ∧ s.BytesKept t

/-- 42_load_alu.md R152: twice `VY` modulo 256 in `VX`, and its bit 7 in `VF` unless that is `VX`. -/
def Obligations.ShiftLeft : Prop :=
  ∀ (s : State) (x y : Nibble), ∃ t, exec (.shlVxVy x y) s = .next t ∧ t.pc = s.pc + 2 ∧
    (t.reg x).toNat = 2 * (s.reg y).toNat % 256 ∧
    (x ≠ regF → (t.reg regF).toNat = (s.reg y).toNat / 128) ∧
    s.OnlyRegsAndPc t ∧ s.RegsKeptBut t [x, regF] ∧ s.BytesKept t

/-! ### Index and random -/

/-- 43_index_random.md R160: `ANNN` sets `I` to `NNN`, and changes nothing else but `PC`. -/
def Obligations.LoadIndex : Prop :=
  ∀ (s : State) (nnn : Addr), ∃ t, exec (.ldI nnn) s = .next t ∧ t.pc = s.pc + 2 ∧ t.i.toNat = nnn.toNat ∧
    t = { s with i := t.i, pc := t.pc } ∧ s.RegsKeptBut t [] ∧ s.BytesKept t

/-- 43_index_random.md R161: `CXNN` puts some byte AND `NN` in `VX`, so no bit outside `NN`; the byte is the next free value
(log entry 4), of which nothing is known (decision D16). -/
def Obligations.RandomUnderMask : Prop :=
  ∀ (s : State) (x : Nibble) (nn : Byte), ∃ t, exec (.rnd x nn) s = .next t ∧ t.pc = s.pc + 2 ∧
    t.reg x = Config.draw8 s.draws &&& nn ∧ t.reg x &&& ~~~nn = 0 ∧ t.draws = s.draws + 1 ∧
    t = { s with v := t.v, pc := t.pc, draws := t.draws } ∧ s.RegsKeptBut t [x] ∧ s.BytesKept t

/-! ### Draw-sprite -/

/-- 44_draw.md R170 to R173 (clipping is decision D9): with the sprite's bytes in memory, `DXYN` leaves the symmetric
difference of the set cells and the sprite's visible 1 bits, and in `VF` 1 iff one of those bits stands on a cell that was
set. `N = 0` reads nothing, whatever `I` is. -/
def Obligations.DrawSprite : Prop :=
  ∀ (s : State) (x y n : Nibble), (n.toNat = 0 ∨ s.i.toNat + n.toNat - 1 ≤ 4095) →
    ∃ t, exec (.drw x y n) s = .next t ∧ t.pc = s.pc + 2 ∧
      (∀ i j : Nat, i < 64 → j < 32 →
        displayCell t.disp i j =
          (displayCell s.disp i j ^^
            spriteHits ((s.reg x).toNat % 64) ((s.reg y).toNat % 32) (s.memBlock s.i.toNat n.toNat) i j)) ∧
      (t.reg regF = 1 ∨ t.reg regF = 0) ∧
      (t.reg regF = 1 ↔ ∃ i j : Nat, i < 64 ∧ j < 32 ∧ displayCell s.disp i j = true ∧
        spriteHits ((s.reg x).toNat % 64) ((s.reg y).toNat % 32) (s.memBlock s.i.toNat n.toNat) i j = true) ∧
      t = { s with v := t.v, pc := t.pc, disp := t.disp } ∧ s.RegsKeptBut t [regF] ∧ s.BytesKept t

/-- 44_draw.md R175 (the spec's own inference from R173; decision C2): the same `DXYN` twice, with `X` and `Y` not 15,
restores the display exactly; the first draw sets `VF` iff the sprite meets the set cells, the second iff some visible 1 bit
of it stood on a cell that was clear before the first. -/
def Obligations.DrawTwiceRestores : Prop :=
  ∀ (s : State) (x y n : Nibble), x ≠ regF → y ≠ regF → (n.toNat = 0 ∨ s.i.toNat + n.toNat - 1 ≤ 4095) →
    ∃ t u, exec (.drw x y n) s = .next t ∧ exec (.drw x y n) t = .next u ∧ u.disp = s.disp ∧
      (t.reg regF = 1 ↔ ∃ i j : Nat, i < 64 ∧ j < 32 ∧ displayCell s.disp i j = true ∧
        spriteHits ((s.reg x).toNat % 64) ((s.reg y).toNat % 32) (s.memBlock s.i.toNat n.toNat) i j = true) ∧
      (u.reg regF = 1 ↔ ∃ i j : Nat, i < 64 ∧ j < 32 ∧ displayCell s.disp i j = false ∧
        spriteHits ((s.reg x).toNat % 64) ((s.reg y).toNat % 32) (s.memBlock s.i.toNat n.toNat) i j = true)

/-! ### Skips on keys -/

/-- 45_keyskip.md R180, R181 (what they do above 15 is KeyIndexFault): with a key number of at most 15 in `VX`, the skips on
its flag; they change nothing but `PC`. -/
def Obligations.SkipOnKey : Prop :=
  (∀ (s : State) (x : Nibble) (k : Fin 16), (s.reg x).toNat = k.val → ∃ t, exec (.skp x) s = .next t ∧
    t.pc = (if s.key[k] = true then s.pc + 4 else s.pc + 2) ∧ s.OnlyPc t ∧ s.RegsKeptBut t [] ∧ s.BytesKept t) ∧
  (∀ (s : State) (x : Nibble) (k : Fin 16), (s.reg x).toNat = k.val → ∃ t, exec (.sknp x) s = .next t ∧
    t.pc = (if s.key[k] = false then s.pc + 4 else s.pc + 2) ∧ s.OnlyPc t ∧ s.RegsKeptBut t [] ∧ s.BytesKept t)

/-! ### Family F -/

/-- 46_familyF.md R190, R192, R193: the moves between a register and the timers. -/
def Obligations.TimerMoves : Prop :=
  (∀ (s : State) (x : Nibble), ∃ t, exec (.ldVxDt x) s = .next t ∧ t.pc = s.pc + 2 ∧ t.reg x = s.dt ∧
    s.OnlyRegsAndPc t ∧ s.RegsKeptBut t [x] ∧ s.BytesKept t) ∧
  (∀ (s : State) (x : Nibble), ∃ t, exec (.ldDtVx x) s = .next t ∧ t.pc = s.pc + 2 ∧ t.dt = s.reg x ∧
    t = { s with dt := t.dt, pc := t.pc } ∧ s.RegsKeptBut t [] ∧ s.BytesKept t) ∧
  (∀ (s : State) (x : Nibble), ∃ t, exec (.ldStVx x) s = .next t ∧ t.pc = s.pc + 2 ∧ t.st = s.reg x ∧
    t = { s with st := t.st, pc := t.pc } ∧ s.RegsKeptBut t [] ∧ s.BytesKept t)

/-- 46_familyF.md R191: `FX0A` starts the wait and writes nothing else but `PC`. -/
def Obligations.KeyWaitStarts : Prop :=
  ∀ (s : State) (x : Nibble), ∃ t, exec (.ldVxK x) s = .next t ∧ t.pc = s.pc + 2 ∧ t.mode = .awaitingKey x ∧
    t = { s with mode := t.mode, pc := t.pc } ∧ s.RegsKeptBut t [] ∧ s.BytesKept t

/-- 46_familyF.md R194 (decision D17): `FX1E` adds modulo 65536, and writes no flag. -/
def Obligations.AddToIndex : Prop :=
  ∀ (s : State) (x : Nibble), ∃ t, exec (.addIVx x) s = .next t ∧ t.pc = s.pc + 2 ∧
    t.i.toNat = (s.i.toNat + (s.reg x).toNat) % 65536 ∧
    t = { s with i := t.i, pc := t.pc } ∧ s.RegsKeptBut t [] ∧ s.BytesKept t

/-- 46_familyF.md R195 (decisions D7, D15): `FX29` sets `I` to five times a digit; above 15 to the next free value (log entry
4), of which nothing is known. -/
def Obligations.FontAddress : Prop :=
  (∀ (s : State) (x : Nibble), (s.reg x).toNat ≤ 15 → ∃ t, exec (.ldFVx x) s = .next t ∧ t.pc = s.pc + 2 ∧
    t.i.toNat = 5 * (s.reg x).toNat ∧ t = { s with i := t.i, pc := t.pc } ∧ s.RegsKeptBut t [] ∧ s.BytesKept t) ∧
  (∀ (s : State) (x : Nibble), 15 < (s.reg x).toNat → ∃ t, exec (.ldFVx x) s = .next t ∧ t.pc = s.pc + 2 ∧
    t.i = Config.draw16 s.draws ∧ t.draws = s.draws + 1 ∧
    t = { s with i := t.i, pc := t.pc, draws := t.draws } ∧ s.RegsKeptBut t [] ∧ s.BytesKept t)

/-- 46_familyF.md R196: `FX33` with `I + 2 <= 4095` stores the three decimal digits of `VX` at `I`, `I + 1` and `I + 2`. -/
def Obligations.DecimalDigits : Prop :=
  ∀ (s : State) (x : Nibble), s.i.toNat + 2 ≤ 4095 →
    ∃ t, exec (.ldBVx x) s = .next t ∧ t.pc = s.pc + 2 ∧
      (t.memRead s.i.toNat).toNat = (s.reg x).toNat / 100 ∧
      (t.memRead (s.i.toNat + 1)).toNat = (s.reg x).toNat / 10 % 10 ∧
      (t.memRead (s.i.toNat + 2)).toNat = (s.reg x).toNat % 10 ∧
      s.BytesKeptBut t s.i.toNat 3 ∧ t = { s with mem := t.mem, pc := t.pc } ∧ s.RegsKeptBut t []

/-- 46_familyF.md R197: `FX55` with `I + X <= 4095` stores `V[0]` to `V[X]` from the old `I` upwards and then moves `I` by
`X + 1`. -/
def Obligations.BlockStore : Prop :=
  ∀ (s : State) (x : Nibble), s.i.toNat + x.toNat ≤ 4095 →
    ∃ t, exec (.ldMemVx x) s = .next t ∧ t.pc = s.pc + 2 ∧ t.i.toNat = s.i.toNat + x.toNat + 1 ∧
      (∀ r : Nibble, r.toNat ≤ x.toNat → t.memRead (s.i.toNat + r.toNat) = s.reg r) ∧
      s.BytesKeptBut t s.i.toNat (x.toNat + 1) ∧ t = { s with mem := t.mem, i := t.i, pc := t.pc } ∧ s.RegsKeptBut t []

/-- 46_familyF.md R198: `FX65` with `I + X <= 4095` loads `V[0]` to `V[X]` from the old `I` upwards, leaves the registers
above `X`, and then moves `I` by `X + 1`. -/
def Obligations.BlockLoad : Prop :=
  ∀ (s : State) (x : Nibble), s.i.toNat + x.toNat ≤ 4095 →
    ∃ t, exec (.ldVxMem x) s = .next t ∧ t.pc = s.pc + 2 ∧ t.i.toNat = s.i.toNat + x.toNat + 1 ∧
      (∀ r : Nibble, r.toNat ≤ x.toNat → t.reg r = s.memRead (s.i.toNat + r.toNat)) ∧
      (∀ r : Nibble, x.toNat < r.toNat → t.reg r = s.reg r) ∧
      t = { s with v := t.v, i := t.i, pc := t.pc } ∧ s.BytesKept t

/-- 46_familyF.md R198: `FX55`, then `ANNN` with the same address, then `FX65` with the same `X` restores every register. -/
def Obligations.StoreThenLoadRestores : Prop :=
  ∀ (s : State) (x : Nibble) (nnn : Addr), s.i.toNat = nnn.toNat → nnn.toNat + x.toNat ≤ 4095 →
    ∃ t u w, exec (.ldMemVx x) s = .next t ∧ exec (.ldI nnn) t = .next u ∧ exec (.ldVxMem x) u = .next w ∧ w.v = s.v

/-! ### Rules over all instructions -/

/-- Who writes what (10_state.md R23, R26, R28, R32, R33, 20_memory.md R72, R77): no instruction writes the keys, the
accumulators, the parameters or the pending events, and each other field but the registers, `PC` and the mode only in the
instructions named. -/
def Obligations.WhoWritesWhat : Prop :=
  ∀ (i : Instr) (s t : State), exec i s = .next t →
    t.key = s.key ∧ t.tacc = s.tacc ∧ t.cacc = s.cacc ∧ t.cfg = s.cfg ∧ t.inputs = s.inputs ∧ t.loadable = s.loadable ∧
    ((t.sp ≠ s.sp ∨ t.stack ≠ s.stack) → i = .ret ∨ ∃ nnn, i = .call nnn) ∧
    (t.disp ≠ s.disp → i = .cls ∨ ∃ x y n, i = .drw x y n) ∧
    ((∃ a, t.memRead a ≠ s.memRead a) → ∃ x, i = .ldBVx x ∨ i = .ldMemVx x) ∧
    (t.dt ≠ s.dt → ∃ x, i = .ldDtVx x) ∧
    (t.st ≠ s.st → ∃ x, i = .ldStVx x) ∧
    (t.i ≠ s.i → (∃ nnn, i = .ldI nnn) ∨ ∃ x, i = .addIVx x ∨ i = .ldFVx x ∨ i = .ldMemVx x ∨ i = .ldVxMem x) ∧
    (t.draws ≠ s.draws → (∃ x nn, i = .rnd x nn) ∨ ∃ x, i = .ldFVx x)

/-- 10_state.md R22: an instruction that changes `VF` is one of the six that write it as a flag or names it as the `X` it
writes (a block load with `X = 15` included). -/
def Obligations.FlagRegisterWriters : Prop :=
  ∀ (i : Instr) (s t : State), exec i s = .next t → t.reg regF ≠ s.reg regF →
    (∃ x y, i = .addVxVy x y ∨ i = .subVxVy x y ∨ i = .shrVxVy x y ∨ i = .subnVxVy x y ∨ i = .shlVxVy x y) ∨
    (∃ x y n, i = .drw x y n) ∨
    (∃ nn, i = .ldVxNn regF nn ∨ i = .addVxNn regF nn ∨ i = .rnd regF nn) ∨
    (∃ y, i = .ldVxVy regF y ∨ i = .orVxVy regF y ∨ i = .andVxVy regF y ∨ i = .xorVxVy regF y) ∨
    i = .ldVxDt regF ∨ i = .ldVxMem regF

/-! ### Host events -/

/-- 60_exceptions.md R229 (decision D19): `KeyDown(k)` outside `Halted` sets the key's flag, and ends a wait by writing `k`
to the register that waits. Beside the Machine State it takes the event from what is pending and clears the load flag, both
the model's own (log entries 1 and 5). -/
def Obligations.KeyDownEvent : Prop :=
  (∀ (s : State) (k : Fin 16) (rest : List HostEvent), s.inputs = .keyDown k.val :: rest → s.mode = .running →
    ∃ t, step s = .next t ∧ t.key[k] = true ∧ (∀ j : Fin 16, j ≠ k → t.key[j] = s.key[j]) ∧
      t = { s with key := t.key, inputs := rest, loadable := false }) ∧
  (∀ (s : State) (k : Fin 16) (x : Nibble) (rest : List HostEvent), s.inputs = .keyDown k.val :: rest →
    s.mode = .awaitingKey x →
    ∃ t, step s = .next t ∧ t.key[k] = true ∧ (∀ j : Fin 16, j ≠ k → t.key[j] = s.key[j]) ∧ (t.reg x).toNat = k.val ∧
      t.mode = .running ∧ s.RegsKeptBut t [x] ∧
      t = { s with key := t.key, v := t.v, mode := t.mode, inputs := rest, loadable := false })

/-- 60_exceptions.md R230: `KeyUp(k)` outside `Halted` clears the key's flag, ends no wait and has no other effect on the
Machine State. It takes the event from what is pending and clears the load flag, both the model's own (log entries 1 and 5).
-/
def Obligations.KeyUpEvent : Prop :=
  ∀ (s : State) (k : Fin 16) (rest : List HostEvent), s.inputs = .keyUp k.val :: rest → s.isHalted = false →
    ∃ t, step s = .next t ∧ t.key[k] = false ∧ (∀ j : Fin 16, j ≠ k → t.key[j] = s.key[j]) ∧
      t = { s with key := t.key, inputs := rest, loadable := false }

/-- 60_exceptions.md R228: a tick takes 1 from each timer that is not 0, and has no other effect. -/
def Obligations.TickDecrements : Prop :=
  ∀ s : State, s.tick.dt.toNat = s.dt.toNat - 1 ∧ s.tick.st.toNat = s.st.toNat - 1 ∧
    s.tick = { s with dt := s.tick.dt, st := s.tick.st }

/-- 60_exceptions.md R227 (its closed form is the spec's own; decisions D2, D20): the repeated subtraction performs
`floor((TACC + dt) * 60)` ticks, and leaves less than a tick's time. -/
def Obligations.TimerUpdateClosedForm : Prop :=
  ∀ (s : State) (dt : Rat) (n : Nat), 0 ≤ s.tacc → 0 ≤ dt → n = ((s.tacc + dt) * 60).floor.toNat →
    (s.timerUpdate dt).dt.toNat = s.dt.toNat - n ∧ (s.timerUpdate dt).st.toNat = s.st.toNat - n ∧
    (s.timerUpdate dt).tacc = s.tacc + dt - n / 60 ∧
    0 ≤ (s.timerUpdate dt).tacc ∧ (s.timerUpdate dt).tacc < 1 / 60 ∧
    s.timerUpdate dt =
      { s with dt := (s.timerUpdate dt).dt, st := (s.timerUpdate dt).st, tacc := (s.timerUpdate dt).tacc }

/-- 60_exceptions.md R227 (decision D2): the ticks depend on the total time alone, whatever the frames it comes in. -/
def Obligations.TimerGranularity : Prop :=
  ∀ (s : State) (dts : List Rat), s.tacc = 0 → (∀ dt ∈ dts, 0 ≤ dt) →
    (dts.foldl State.timerUpdate s).dt.toNat = s.dt.toNat - (dts.sum * 60).floor.toNat ∧
    (dts.foldl State.timerUpdate s).st.toNat = s.st.toNat - (dts.sum * 60).floor.toNat

/-- 60_exceptions.md R225, R226, R216 (decisions D2, D13): a frame outside `Halted` runs `floor((CACC + dt) * RATE)` cycles
and then, if none faulted, takes their time from `CACC`, which ends below `1 / RATE`, and updates the timers; after a fault
it does neither. What a batch of cycles is, BatchRunsCycles says. The event is taken and the load flag is cleared before the
batch, both the model's own (log entries 1 and 5). -/
def Obligations.FrameRunsBatch : Prop :=
  ∀ (s t : State) (dt : Rat) (rest : List HostEvent) (due : Nat), s.inputs = .frame dt :: rest → 0 ≤ dt →
    s.isHalted = false → 0 ≤ s.cacc → due = ((s.cacc + dt) * s.cfg.rateQ).floor.toNat →
    runCycles due { s with cacc := s.cacc + dt, inputs := rest, loadable := false } = .next t →
    (t.isHalted = true → step s = .next t ∧ t.cacc = s.cacc + dt ∧ t.tacc = s.tacc) ∧
    (t.isHalted = false →
      step s = .next ({ t with cacc := s.cacc + dt - due / s.cfg.rateQ }.timerUpdate dt) ∧
      0 ≤ s.cacc + dt - due / s.cfg.rateQ ∧ s.cacc + dt - due / s.cfg.rateQ < 1 / s.cfg.rateQ)

/-- 60_exceptions.md R225, R227 (their own closed forms; decision D2): over any sequence of pending frames, of total time
`T`, none of which faults, from `CACC = 0`: `CACC` ends with what `floor(T * RATE)` cycles leave, and from `TACC = 0` too
`TACC` with what `floor(T * 60)` ticks leave; the `k`-th frame performs the `k`-th number of cycles in `batchSizes`, and
these numbers add up to `floor(T * RATE)`. (Pending events and the load flag are the model's own, log entries 1 and 5.) -/
def Obligations.SchedulerTotalCycles : Prop :=
  ∀ (s t : State) (dts : List Rat) (rest : List HostEvent), s.cacc = 0 → (∀ dt ∈ dts, 0 ≤ dt) →
    s.inputs = dts.map HostEvent.frame ++ rest → runSteps dts.length s = .next t → t.isHalted = false →
    t.cacc = dts.sum - (dts.sum * s.cfg.rateQ).floor.toNat / s.cfg.rateQ ∧
    (s.tacc = 0 → t.tacc = dts.sum - (dts.sum * 60).floor.toNat / 60) ∧
    (batchSizes s.cfg.rateQ 0 dts).sum = (dts.sum * s.cfg.rateQ).floor.toNat ∧
    (∀ (k : Nat) (u : State) (dt : Rat) (due : Nat), runSteps k s = .next u → dts[k]? = some dt →
      (batchSizes s.cfg.rateQ 0 dts)[k]? = some due →
      ∃ w, runCycles due { u with
          cacc := u.cacc + dt, inputs := (dts.drop (k + 1)).map HostEvent.frame ++ rest, loadable := false } = .next w ∧
        step u = .next ({ w with cacc := u.cacc + dt - due / s.cfg.rateQ }.timerUpdate dt))

/-- 70_reset_and_hazards.md R264 (decision D23; log entry 5): `LoadImage(bytes)` directly after `Reset` copies the image to
0x200 upwards, discards what passes 0xFFF, and changes nothing else. -/
def Obligations.LoadImageEvent : Prop :=
  ∀ (s : State) (bytes : List Byte) (rest : List HostEvent), s.inputs = .loadImage bytes :: rest → s.loadable = true →
    s.isHalted = false →
    ∃ t, step s = .next t ∧
      (∀ (k : Nat) (h : k < bytes.length), k < 3584 → t.memRead (0x200 + k) = bytes[k]) ∧
      s.BytesKeptBut t 0x200 (min bytes.length 3584) ∧
      t = { s with mem := t.mem, inputs := rest, loadable := false }

/-- 60_exceptions.md R231, R232 (decisions D22, D12): the two observations change nothing; `ReadDisplay` is the grid of 0 and
255, `ReadStatus` the mode with its fault record. That the events return these values is the model's form (log entry 14):
they are given by the functions `readDisplay` and `readStatus`, which no step uses; that an event is taken from what is
pending is log entry 1. -/
def Obligations.Observations : Prop :=
  (∀ (s : State) (rest : List HostEvent), s.inputs = .readDisplay :: rest → step s = .next { s with inputs := rest }) ∧
  (∀ (s : State) (rest : List HostEvent), s.inputs = .readStatus :: rest → step s = .next { s with inputs := rest }) ∧
  (∀ s : State, s.readDisplay.length = 2048 ∧ ∀ x y : Nat, x < 64 → y < 32 →
    s.readDisplay[64 * y + x]? = some (if displayCell s.disp x y then 255 else 0)) ∧
  (∀ s : State, s.readStatus = s.mode)

/-- 60_exceptions.md R225 step 3, R216 item 4, R223, R224, R219: a batch of cycles is its cycles one after another, stopping
at the first that faults; and what one cycle is, whatever events are pending: fetch, decode and `exec` in `Running`, or the
fault of R214 (a) or R211; nothing in `AwaitingKey` and (log entry 10) in `Halted`. A step with nothing pending is a cycle
(log entry 1), and a cycle in `Running` clears the load flag (log entry 5). -/
def Obligations.BatchRunsCycles : Prop :=
  (∀ s : State, runCycles 0 s = .next s) ∧
  (∀ (n : Nat) (s t : State), cycle s = .next t → t.isHalted = true → runCycles (n + 1) s = .next t) ∧
  (∀ (n : Nat) (s t : State), cycle s = .next t → t.isHalted = false → runCycles (n + 1) s = runCycles n t) ∧
  (∀ (n : Nat) (s : State) (f : Fault), cycle s = .fault f → runCycles (n + 1) s = .fault f) ∧
  (∀ s : State, s.inputs = [] → step s = cycle s) ∧
  (∀ (s : State) (i : Instr), s.mode = .running → s.pc.toNat ≤ 4094 →
    decodeBytes [s.memRead s.pc.toNat, s.memRead (s.pc.toNat + 1)] = .instr i [] →
    cycle s = exec i { s with loadable := false }) ∧
  (∀ (s : State) (op : Word), s.mode = .running → s.pc.toNat ≤ 4094 →
    decodeBytes [s.memRead s.pc.toNat, s.memRead (s.pc.toNat + 1)] = .unrecognized op →
    cycle s = .next { s with pc := s.pc + 2, mode := .halted ⟨.unrecognizedOpcode, s.pc, some op⟩, loadable := false }) ∧
  (∀ s : State, s.mode = .running → 4094 < s.pc.toNat →
    cycle s = .next { s with mode := .halted ⟨.memoryOutOfRange, s.pc, none⟩, loadable := false }) ∧
  (∀ (s : State) (x : Nibble), s.mode = .awaitingKey x → cycle s = .next s) ∧
  (∀ (s : State) (r : FaultRecord), s.mode = .halted r → cycle s = .next s)

/-- 60_exceptions.md R224, R226, R227 (decision D20): a frame while a key is awaited changes the accumulators and the timers,
and nothing else of the Machine State: its cycles are idle and use up their time. From a state that meets the invariant, a
batch of cycles of any length answers a next state, so every frame with `dt >= 0` has a step, and no step at all ends in the
model's fault. (Pending events and the load flag are the model's own, log entries 1 and 5; log entry 6 for the fault.) -/
def Obligations.FramesAlwaysStep : Prop :=
  (∀ (s : State) (x : Nibble) (dt : Rat) (rest : List HostEvent), s.mode = .awaitingKey x →
    s.inputs = .frame dt :: rest → 0 ≤ dt →
    ∃ t, step s = .next t ∧
      t = { s with dt := t.dt, st := t.st, tacc := t.tacc, cacc := t.cacc, inputs := rest, loadable := false } ∧
      t.cacc = s.cacc + dt - ((s.cacc + dt) * s.cfg.rateQ).floor.toNat / s.cfg.rateQ ∧
      t.dt = (s.timerUpdate dt).dt ∧ t.st = (s.timerUpdate dt).st ∧ t.tacc = (s.timerUpdate dt).tacc) ∧
  (∀ (s : State) (dt : Rat) (rest : List HostEvent) (n : Nat), s.Inv → ∃ t,
    runCycles n { s with cacc := s.cacc + dt, inputs := rest, loadable := false } = .next t) ∧
  (∀ (s : State) (dt : Rat) (rest : List HostEvent), s.Inv → s.inputs = .frame dt :: rest → 0 ≤ dt →
    ∃ t, step s = .next t) ∧
  (∀ (s : State) (f : Fault), s.Inv → step s ≠ .fault f)
end

