-- ==== Sys2Proof/Laws/State.lean ====
section
/-! SUPPORT. What each update of a state leaves in each field: one lemma per field, so that no later proof unfolds a record
update. -/

namespace Sys2Proof.Machine

variable (s : State)

/-! `advance` (R16) writes the program counter and nothing else. -/

@[simp] theorem State.advance_v : s.advance.v = s.v := rfl
@[simp] theorem State.advance_i : s.advance.i = s.i := rfl
@[simp] theorem State.advance_pc : s.advance.pc = s.pc + 2 := rfl
@[simp] theorem State.advance_sp : s.advance.sp = s.sp := rfl
@[simp] theorem State.advance_stack : s.advance.stack = s.stack := rfl
@[simp] theorem State.advance_dt : s.advance.dt = s.dt := rfl
@[simp] theorem State.advance_st : s.advance.st = s.st := rfl
@[simp] theorem State.advance_mem : s.advance.mem = s.mem := rfl
@[simp] theorem State.advance_disp : s.advance.disp = s.disp := rfl
@[simp] theorem State.advance_key : s.advance.key = s.key := rfl
@[simp] theorem State.advance_mode : s.advance.mode = s.mode := rfl
@[simp] theorem State.advance_tacc : s.advance.tacc = s.tacc := rfl
@[simp] theorem State.advance_cacc : s.advance.cacc = s.cacc := rfl
@[simp] theorem State.advance_cfg : s.advance.cfg = s.cfg := rfl
@[simp] theorem State.advance_draws : s.advance.draws = s.draws := rfl
@[simp] theorem State.advance_inputs : s.advance.inputs = s.inputs := rfl
@[simp] theorem State.advance_loadable : s.advance.loadable = s.loadable := rfl

/-! `jump` writes the program counter and nothing else. -/

@[simp] theorem State.jump_v (a : Word) : (s.jump a).v = s.v := rfl
@[simp] theorem State.jump_i (a : Word) : (s.jump a).i = s.i := rfl
@[simp] theorem State.jump_pc (a : Word) : (s.jump a).pc = a := rfl
@[simp] theorem State.jump_sp (a : Word) : (s.jump a).sp = s.sp := rfl
@[simp] theorem State.jump_stack (a : Word) : (s.jump a).stack = s.stack := rfl
@[simp] theorem State.jump_dt (a : Word) : (s.jump a).dt = s.dt := rfl
@[simp] theorem State.jump_st (a : Word) : (s.jump a).st = s.st := rfl
@[simp] theorem State.jump_mem (a : Word) : (s.jump a).mem = s.mem := rfl
@[simp] theorem State.jump_disp (a : Word) : (s.jump a).disp = s.disp := rfl
@[simp] theorem State.jump_key (a : Word) : (s.jump a).key = s.key := rfl
@[simp] theorem State.jump_mode (a : Word) : (s.jump a).mode = s.mode := rfl
@[simp] theorem State.jump_tacc (a : Word) : (s.jump a).tacc = s.tacc := rfl
@[simp] theorem State.jump_cacc (a : Word) : (s.jump a).cacc = s.cacc := rfl
@[simp] theorem State.jump_cfg (a : Word) : (s.jump a).cfg = s.cfg := rfl
@[simp] theorem State.jump_draws (a : Word) : (s.jump a).draws = s.draws := rfl
@[simp] theorem State.jump_inputs (a : Word) : (s.jump a).inputs = s.inputs := rfl
@[simp] theorem State.jump_loadable (a : Word) : (s.jump a).loadable = s.loadable := rfl

/-! `setReg` (R21) writes the general registers and nothing else. -/

@[simp] theorem State.setReg_v (x : Nibble) (b : Byte) : (s.setReg x b).v = s.v.set x.toNat b x.isLt := rfl
@[simp] theorem State.setReg_i (x : Nibble) (b : Byte) : (s.setReg x b).i = s.i := rfl
@[simp] theorem State.setReg_pc (x : Nibble) (b : Byte) : (s.setReg x b).pc = s.pc := rfl
@[simp] theorem State.setReg_sp (x : Nibble) (b : Byte) : (s.setReg x b).sp = s.sp := rfl
@[simp] theorem State.setReg_stack (x : Nibble) (b : Byte) : (s.setReg x b).stack = s.stack := rfl
@[simp] theorem State.setReg_dt (x : Nibble) (b : Byte) : (s.setReg x b).dt = s.dt := rfl
@[simp] theorem State.setReg_st (x : Nibble) (b : Byte) : (s.setReg x b).st = s.st := rfl
@[simp] theorem State.setReg_mem (x : Nibble) (b : Byte) : (s.setReg x b).mem = s.mem := rfl
@[simp] theorem State.setReg_disp (x : Nibble) (b : Byte) : (s.setReg x b).disp = s.disp := rfl
@[simp] theorem State.setReg_key (x : Nibble) (b : Byte) : (s.setReg x b).key = s.key := rfl
@[simp] theorem State.setReg_mode (x : Nibble) (b : Byte) : (s.setReg x b).mode = s.mode := rfl
@[simp] theorem State.setReg_tacc (x : Nibble) (b : Byte) : (s.setReg x b).tacc = s.tacc := rfl
@[simp] theorem State.setReg_cacc (x : Nibble) (b : Byte) : (s.setReg x b).cacc = s.cacc := rfl
@[simp] theorem State.setReg_cfg (x : Nibble) (b : Byte) : (s.setReg x b).cfg = s.cfg := rfl
@[simp] theorem State.setReg_draws (x : Nibble) (b : Byte) : (s.setReg x b).draws = s.draws := rfl
@[simp] theorem State.setReg_inputs (x : Nibble) (b : Byte) : (s.setReg x b).inputs = s.inputs := rfl
@[simp] theorem State.setReg_loadable (x : Nibble) (b : Byte) : (s.setReg x b).loadable = s.loadable := rfl

/-! `setFlagged` (R141) writes the general registers and nothing else. -/

@[simp] theorem State.setFlagged_i (x : Nibble) (c : Bool) (b : Byte) : (s.setFlagged x c b).i = s.i := rfl
@[simp] theorem State.setFlagged_pc (x : Nibble) (c : Bool) (b : Byte) : (s.setFlagged x c b).pc = s.pc := rfl
@[simp] theorem State.setFlagged_sp (x : Nibble) (c : Bool) (b : Byte) : (s.setFlagged x c b).sp = s.sp := rfl
@[simp] theorem State.setFlagged_stack (x : Nibble) (c : Bool) (b : Byte) : (s.setFlagged x c b).stack = s.stack := rfl
@[simp] theorem State.setFlagged_dt (x : Nibble) (c : Bool) (b : Byte) : (s.setFlagged x c b).dt = s.dt := rfl
@[simp] theorem State.setFlagged_st (x : Nibble) (c : Bool) (b : Byte) : (s.setFlagged x c b).st = s.st := rfl
@[simp] theorem State.setFlagged_mem (x : Nibble) (c : Bool) (b : Byte) : (s.setFlagged x c b).mem = s.mem := rfl
@[simp] theorem State.setFlagged_disp (x : Nibble) (c : Bool) (b : Byte) : (s.setFlagged x c b).disp = s.disp := rfl
@[simp] theorem State.setFlagged_key (x : Nibble) (c : Bool) (b : Byte) : (s.setFlagged x c b).key = s.key := rfl
@[simp] theorem State.setFlagged_mode (x : Nibble) (c : Bool) (b : Byte) : (s.setFlagged x c b).mode = s.mode := rfl
@[simp] theorem State.setFlagged_tacc (x : Nibble) (c : Bool) (b : Byte) : (s.setFlagged x c b).tacc = s.tacc := rfl
@[simp] theorem State.setFlagged_cacc (x : Nibble) (c : Bool) (b : Byte) : (s.setFlagged x c b).cacc = s.cacc := rfl
@[simp] theorem State.setFlagged_cfg (x : Nibble) (c : Bool) (b : Byte) : (s.setFlagged x c b).cfg = s.cfg := rfl
@[simp] theorem State.setFlagged_draws (x : Nibble) (c : Bool) (b : Byte) : (s.setFlagged x c b).draws = s.draws := rfl
@[simp] theorem State.setFlagged_inputs (x : Nibble) (c : Bool) (b : Byte) : (s.setFlagged x c b).inputs = s.inputs := rfl
@[simp] theorem State.setFlagged_loadable (x : Nibble) (c : Bool) (b : Byte) : (s.setFlagged x c b).loadable = s.loadable := rfl

/-! `memWrite` (R63) writes memory and nothing else. -/

@[simp] theorem State.memWrite_v (a : Nat) (b : Byte) : (s.memWrite a b).v = s.v := rfl
@[simp] theorem State.memWrite_i (a : Nat) (b : Byte) : (s.memWrite a b).i = s.i := rfl
@[simp] theorem State.memWrite_pc (a : Nat) (b : Byte) : (s.memWrite a b).pc = s.pc := rfl
@[simp] theorem State.memWrite_sp (a : Nat) (b : Byte) : (s.memWrite a b).sp = s.sp := rfl
@[simp] theorem State.memWrite_stack (a : Nat) (b : Byte) : (s.memWrite a b).stack = s.stack := rfl
@[simp] theorem State.memWrite_dt (a : Nat) (b : Byte) : (s.memWrite a b).dt = s.dt := rfl
@[simp] theorem State.memWrite_st (a : Nat) (b : Byte) : (s.memWrite a b).st = s.st := rfl
@[simp] theorem State.memWrite_mem (a : Nat) (b : Byte) : (s.memWrite a b).mem = storeByte s.cfg.font a b s.mem := rfl
@[simp] theorem State.memWrite_disp (a : Nat) (b : Byte) : (s.memWrite a b).disp = s.disp := rfl
@[simp] theorem State.memWrite_key (a : Nat) (b : Byte) : (s.memWrite a b).key = s.key := rfl
@[simp] theorem State.memWrite_mode (a : Nat) (b : Byte) : (s.memWrite a b).mode = s.mode := rfl
@[simp] theorem State.memWrite_tacc (a : Nat) (b : Byte) : (s.memWrite a b).tacc = s.tacc := rfl
@[simp] theorem State.memWrite_cacc (a : Nat) (b : Byte) : (s.memWrite a b).cacc = s.cacc := rfl
@[simp] theorem State.memWrite_cfg (a : Nat) (b : Byte) : (s.memWrite a b).cfg = s.cfg := rfl
@[simp] theorem State.memWrite_draws (a : Nat) (b : Byte) : (s.memWrite a b).draws = s.draws := rfl
@[simp] theorem State.memWrite_inputs (a : Nat) (b : Byte) : (s.memWrite a b).inputs = s.inputs := rfl
@[simp] theorem State.memWrite_loadable (a : Nat) (b : Byte) : (s.memWrite a b).loadable = s.loadable := rfl

/-! `halt` (R216) writes the mode and nothing else. -/

@[simp] theorem State.halt_v (c : Cause) (a : Word) (op : Option Word) : (s.halt c a op).v = s.v := rfl
@[simp] theorem State.halt_i (c : Cause) (a : Word) (op : Option Word) : (s.halt c a op).i = s.i := rfl
@[simp] theorem State.halt_pc (c : Cause) (a : Word) (op : Option Word) : (s.halt c a op).pc = s.pc := rfl
@[simp] theorem State.halt_sp (c : Cause) (a : Word) (op : Option Word) : (s.halt c a op).sp = s.sp := rfl
@[simp] theorem State.halt_stack (c : Cause) (a : Word) (op : Option Word) : (s.halt c a op).stack = s.stack := rfl
@[simp] theorem State.halt_dt (c : Cause) (a : Word) (op : Option Word) : (s.halt c a op).dt = s.dt := rfl
@[simp] theorem State.halt_st (c : Cause) (a : Word) (op : Option Word) : (s.halt c a op).st = s.st := rfl
@[simp] theorem State.halt_mem (c : Cause) (a : Word) (op : Option Word) : (s.halt c a op).mem = s.mem := rfl
@[simp] theorem State.halt_disp (c : Cause) (a : Word) (op : Option Word) : (s.halt c a op).disp = s.disp := rfl
@[simp] theorem State.halt_key (c : Cause) (a : Word) (op : Option Word) : (s.halt c a op).key = s.key := rfl
@[simp] theorem State.halt_mode (c : Cause) (a : Word) (op : Option Word) : (s.halt c a op).mode = .halted ⟨c, a, op⟩ := rfl
@[simp] theorem State.halt_tacc (c : Cause) (a : Word) (op : Option Word) : (s.halt c a op).tacc = s.tacc := rfl
@[simp] theorem State.halt_cacc (c : Cause) (a : Word) (op : Option Word) : (s.halt c a op).cacc = s.cacc := rfl
@[simp] theorem State.halt_cfg (c : Cause) (a : Word) (op : Option Word) : (s.halt c a op).cfg = s.cfg := rfl
@[simp] theorem State.halt_draws (c : Cause) (a : Word) (op : Option Word) : (s.halt c a op).draws = s.draws := rfl
@[simp] theorem State.halt_inputs (c : Cause) (a : Word) (op : Option Word) : (s.halt c a op).inputs = s.inputs := rfl
@[simp] theorem State.halt_loadable (c : Cause) (a : Word) (op : Option Word) : (s.halt c a op).loadable = s.loadable := rfl

/-! `raise` (R216) writes the program counter and the mode and nothing else. -/

@[simp] theorem State.raise_v (c : Cause) (op : Word) : (s.raise c op).v = s.v := rfl
@[simp] theorem State.raise_i (c : Cause) (op : Word) : (s.raise c op).i = s.i := rfl
@[simp] theorem State.raise_pc (c : Cause) (op : Word) : (s.raise c op).pc = s.pc + 2 := rfl
@[simp] theorem State.raise_sp (c : Cause) (op : Word) : (s.raise c op).sp = s.sp := rfl
@[simp] theorem State.raise_stack (c : Cause) (op : Word) : (s.raise c op).stack = s.stack := rfl
@[simp] theorem State.raise_dt (c : Cause) (op : Word) : (s.raise c op).dt = s.dt := rfl
@[simp] theorem State.raise_st (c : Cause) (op : Word) : (s.raise c op).st = s.st := rfl
@[simp] theorem State.raise_mem (c : Cause) (op : Word) : (s.raise c op).mem = s.mem := rfl
@[simp] theorem State.raise_disp (c : Cause) (op : Word) : (s.raise c op).disp = s.disp := rfl
@[simp] theorem State.raise_key (c : Cause) (op : Word) : (s.raise c op).key = s.key := rfl
@[simp] theorem State.raise_mode (c : Cause) (op : Word) : (s.raise c op).mode = .halted ⟨c, s.pc, some op⟩ := rfl
@[simp] theorem State.raise_tacc (c : Cause) (op : Word) : (s.raise c op).tacc = s.tacc := rfl
@[simp] theorem State.raise_cacc (c : Cause) (op : Word) : (s.raise c op).cacc = s.cacc := rfl
@[simp] theorem State.raise_cfg (c : Cause) (op : Word) : (s.raise c op).cfg = s.cfg := rfl
@[simp] theorem State.raise_draws (c : Cause) (op : Word) : (s.raise c op).draws = s.draws := rfl
@[simp] theorem State.raise_inputs (c : Cause) (op : Word) : (s.raise c op).inputs = s.inputs := rfl
@[simp] theorem State.raise_loadable (c : Cause) (op : Word) : (s.raise c op).loadable = s.loadable := rfl

/-! `raiseFetch` (R214) writes the mode and nothing else. -/

@[simp] theorem State.raiseFetch_v : s.raiseFetch.v = s.v := rfl
@[simp] theorem State.raiseFetch_i : s.raiseFetch.i = s.i := rfl
@[simp] theorem State.raiseFetch_pc : s.raiseFetch.pc = s.pc := rfl
@[simp] theorem State.raiseFetch_sp : s.raiseFetch.sp = s.sp := rfl
@[simp] theorem State.raiseFetch_stack : s.raiseFetch.stack = s.stack := rfl
@[simp] theorem State.raiseFetch_dt : s.raiseFetch.dt = s.dt := rfl
@[simp] theorem State.raiseFetch_st : s.raiseFetch.st = s.st := rfl
@[simp] theorem State.raiseFetch_mem : s.raiseFetch.mem = s.mem := rfl
@[simp] theorem State.raiseFetch_disp : s.raiseFetch.disp = s.disp := rfl
@[simp] theorem State.raiseFetch_key : s.raiseFetch.key = s.key := rfl
@[simp] theorem State.raiseFetch_mode : s.raiseFetch.mode = .halted ⟨.memoryOutOfRange, s.pc, none⟩ := rfl
@[simp] theorem State.raiseFetch_tacc : s.raiseFetch.tacc = s.tacc := rfl
@[simp] theorem State.raiseFetch_cacc : s.raiseFetch.cacc = s.cacc := rfl
@[simp] theorem State.raiseFetch_cfg : s.raiseFetch.cfg = s.cfg := rfl
@[simp] theorem State.raiseFetch_draws : s.raiseFetch.draws = s.draws := rfl
@[simp] theorem State.raiseFetch_inputs : s.raiseFetch.inputs = s.inputs := rfl
@[simp] theorem State.raiseFetch_loadable : s.raiseFetch.loadable = s.loadable := rfl

/-! `closeLoad` writes `loadable` and nothing else. -/

@[simp] theorem State.closeLoad_v : s.closeLoad.v = s.v := rfl
@[simp] theorem State.closeLoad_i : s.closeLoad.i = s.i := rfl
@[simp] theorem State.closeLoad_pc : s.closeLoad.pc = s.pc := rfl
@[simp] theorem State.closeLoad_sp : s.closeLoad.sp = s.sp := rfl
@[simp] theorem State.closeLoad_stack : s.closeLoad.stack = s.stack := rfl
@[simp] theorem State.closeLoad_dt : s.closeLoad.dt = s.dt := rfl
@[simp] theorem State.closeLoad_st : s.closeLoad.st = s.st := rfl
@[simp] theorem State.closeLoad_mem : s.closeLoad.mem = s.mem := rfl
@[simp] theorem State.closeLoad_disp : s.closeLoad.disp = s.disp := rfl
@[simp] theorem State.closeLoad_key : s.closeLoad.key = s.key := rfl
@[simp] theorem State.closeLoad_mode : s.closeLoad.mode = s.mode := rfl
@[simp] theorem State.closeLoad_tacc : s.closeLoad.tacc = s.tacc := rfl
@[simp] theorem State.closeLoad_cacc : s.closeLoad.cacc = s.cacc := rfl
@[simp] theorem State.closeLoad_cfg : s.closeLoad.cfg = s.cfg := rfl
@[simp] theorem State.closeLoad_draws : s.closeLoad.draws = s.draws := rfl
@[simp] theorem State.closeLoad_inputs : s.closeLoad.inputs = s.inputs := rfl
@[simp] theorem State.closeLoad_loadable : s.closeLoad.loadable = false := rfl

/-! `tick` (R228) writes the two timers and nothing else. -/

@[simp] theorem State.tick_v : s.tick.v = s.v := rfl
@[simp] theorem State.tick_i : s.tick.i = s.i := rfl
@[simp] theorem State.tick_pc : s.tick.pc = s.pc := rfl
@[simp] theorem State.tick_sp : s.tick.sp = s.sp := rfl
@[simp] theorem State.tick_stack : s.tick.stack = s.stack := rfl
@[simp] theorem State.tick_dt : s.tick.dt = if s.dt = 0 then 0 else s.dt - 1 := rfl
@[simp] theorem State.tick_st : s.tick.st = if s.st = 0 then 0 else s.st - 1 := rfl
@[simp] theorem State.tick_mem : s.tick.mem = s.mem := rfl
@[simp] theorem State.tick_disp : s.tick.disp = s.disp := rfl
@[simp] theorem State.tick_key : s.tick.key = s.key := rfl
@[simp] theorem State.tick_mode : s.tick.mode = s.mode := rfl
@[simp] theorem State.tick_tacc : s.tick.tacc = s.tacc := rfl
@[simp] theorem State.tick_cacc : s.tick.cacc = s.cacc := rfl
@[simp] theorem State.tick_cfg : s.tick.cfg = s.cfg := rfl
@[simp] theorem State.tick_draws : s.tick.draws = s.draws := rfl
@[simp] theorem State.tick_inputs : s.tick.inputs = s.inputs := rfl
@[simp] theorem State.tick_loadable : s.tick.loadable = s.loadable := rfl

/-! The updates that depend on a condition, and the repeated ones. -/

@[simp] theorem State.skipIf_v (c : Bool) : (s.skipIf c).v = s.v := by cases c <;> rfl
@[simp] theorem State.skipIf_i (c : Bool) : (s.skipIf c).i = s.i := by cases c <;> rfl
@[simp] theorem State.skipIf_sp (c : Bool) : (s.skipIf c).sp = s.sp := by cases c <;> rfl
@[simp] theorem State.skipIf_stack (c : Bool) : (s.skipIf c).stack = s.stack := by cases c <;> rfl
@[simp] theorem State.skipIf_dt (c : Bool) : (s.skipIf c).dt = s.dt := by cases c <;> rfl
@[simp] theorem State.skipIf_st (c : Bool) : (s.skipIf c).st = s.st := by cases c <;> rfl
@[simp] theorem State.skipIf_mem (c : Bool) : (s.skipIf c).mem = s.mem := by cases c <;> rfl
@[simp] theorem State.skipIf_disp (c : Bool) : (s.skipIf c).disp = s.disp := by cases c <;> rfl
@[simp] theorem State.skipIf_key (c : Bool) : (s.skipIf c).key = s.key := by cases c <;> rfl
@[simp] theorem State.skipIf_mode (c : Bool) : (s.skipIf c).mode = s.mode := by cases c <;> rfl
@[simp] theorem State.skipIf_tacc (c : Bool) : (s.skipIf c).tacc = s.tacc := by cases c <;> rfl
@[simp] theorem State.skipIf_cacc (c : Bool) : (s.skipIf c).cacc = s.cacc := by cases c <;> rfl
@[simp] theorem State.skipIf_cfg (c : Bool) : (s.skipIf c).cfg = s.cfg := by cases c <;> rfl
@[simp] theorem State.skipIf_draws (c : Bool) : (s.skipIf c).draws = s.draws := by cases c <;> rfl
@[simp] theorem State.skipIf_inputs (c : Bool) : (s.skipIf c).inputs = s.inputs := by cases c <;> rfl
@[simp] theorem State.skipIf_loadable (c : Bool) : (s.skipIf c).loadable = s.loadable := by cases c <;> rfl

@[simp] theorem State.push_v : s.push.v = s.v := by unfold State.push; split <;> rfl
@[simp] theorem State.push_i : s.push.i = s.i := by unfold State.push; split <;> rfl
@[simp] theorem State.push_pc : s.push.pc = s.pc := by unfold State.push; split <;> rfl
@[simp] theorem State.push_dt : s.push.dt = s.dt := by unfold State.push; split <;> rfl
@[simp] theorem State.push_st : s.push.st = s.st := by unfold State.push; split <;> rfl
@[simp] theorem State.push_mem : s.push.mem = s.mem := by unfold State.push; split <;> rfl
@[simp] theorem State.push_disp : s.push.disp = s.disp := by unfold State.push; split <;> rfl
@[simp] theorem State.push_key : s.push.key = s.key := by unfold State.push; split <;> rfl
@[simp] theorem State.push_mode : s.push.mode = s.mode := by unfold State.push; split <;> rfl
@[simp] theorem State.push_tacc : s.push.tacc = s.tacc := by unfold State.push; split <;> rfl
@[simp] theorem State.push_cacc : s.push.cacc = s.cacc := by unfold State.push; split <;> rfl
@[simp] theorem State.push_cfg : s.push.cfg = s.cfg := by unfold State.push; split <;> rfl
@[simp] theorem State.push_draws : s.push.draws = s.draws := by unfold State.push; split <;> rfl
@[simp] theorem State.push_inputs : s.push.inputs = s.inputs := by unfold State.push; split <;> rfl
@[simp] theorem State.push_loadable : s.push.loadable = s.loadable := by unfold State.push; split <;> rfl

@[simp] theorem State.pop_v : s.pop.v = s.v := by unfold State.pop; split <;> rfl
@[simp] theorem State.pop_i : s.pop.i = s.i := by unfold State.pop; split <;> rfl
@[simp] theorem State.pop_stack : s.pop.stack = s.stack := by unfold State.pop; split <;> rfl
@[simp] theorem State.pop_dt : s.pop.dt = s.dt := by unfold State.pop; split <;> rfl
@[simp] theorem State.pop_st : s.pop.st = s.st := by unfold State.pop; split <;> rfl
@[simp] theorem State.pop_mem : s.pop.mem = s.mem := by unfold State.pop; split <;> rfl
@[simp] theorem State.pop_disp : s.pop.disp = s.disp := by unfold State.pop; split <;> rfl
@[simp] theorem State.pop_key : s.pop.key = s.key := by unfold State.pop; split <;> rfl
@[simp] theorem State.pop_mode : s.pop.mode = s.mode := by unfold State.pop; split <;> rfl
@[simp] theorem State.pop_tacc : s.pop.tacc = s.tacc := by unfold State.pop; split <;> rfl
@[simp] theorem State.pop_cacc : s.pop.cacc = s.cacc := by unfold State.pop; split <;> rfl
@[simp] theorem State.pop_cfg : s.pop.cfg = s.cfg := by unfold State.pop; split <;> rfl
@[simp] theorem State.pop_draws : s.pop.draws = s.draws := by unfold State.pop; split <;> rfl
@[simp] theorem State.pop_inputs : s.pop.inputs = s.inputs := by unfold State.pop; split <;> rfl
@[simp] theorem State.pop_loadable : s.pop.loadable = s.loadable := by unfold State.pop; split <;> rfl

@[simp] theorem State.setKey_v (k : Nat) (b : Bool) : (s.setKey k b).v = s.v := by unfold State.setKey; split <;> rfl
@[simp] theorem State.setKey_i (k : Nat) (b : Bool) : (s.setKey k b).i = s.i := by unfold State.setKey; split <;> rfl
@[simp] theorem State.setKey_pc (k : Nat) (b : Bool) : (s.setKey k b).pc = s.pc := by unfold State.setKey; split <;> rfl
@[simp] theorem State.setKey_sp (k : Nat) (b : Bool) : (s.setKey k b).sp = s.sp := by unfold State.setKey; split <;> rfl
@[simp] theorem State.setKey_stack (k : Nat) (b : Bool) : (s.setKey k b).stack = s.stack := by unfold State.setKey; split <;> rfl
@[simp] theorem State.setKey_dt (k : Nat) (b : Bool) : (s.setKey k b).dt = s.dt := by unfold State.setKey; split <;> rfl
@[simp] theorem State.setKey_st (k : Nat) (b : Bool) : (s.setKey k b).st = s.st := by unfold State.setKey; split <;> rfl
@[simp] theorem State.setKey_mem (k : Nat) (b : Bool) : (s.setKey k b).mem = s.mem := by unfold State.setKey; split <;> rfl
@[simp] theorem State.setKey_disp (k : Nat) (b : Bool) : (s.setKey k b).disp = s.disp := by unfold State.setKey; split <;> rfl
@[simp] theorem State.setKey_mode (k : Nat) (b : Bool) : (s.setKey k b).mode = s.mode := by unfold State.setKey; split <;> rfl
@[simp] theorem State.setKey_tacc (k : Nat) (b : Bool) : (s.setKey k b).tacc = s.tacc := by unfold State.setKey; split <;> rfl
@[simp] theorem State.setKey_cacc (k : Nat) (b : Bool) : (s.setKey k b).cacc = s.cacc := by unfold State.setKey; split <;> rfl
@[simp] theorem State.setKey_cfg (k : Nat) (b : Bool) : (s.setKey k b).cfg = s.cfg := by unfold State.setKey; split <;> rfl
@[simp] theorem State.setKey_draws (k : Nat) (b : Bool) : (s.setKey k b).draws = s.draws := by unfold State.setKey; split <;> rfl
@[simp] theorem State.setKey_inputs (k : Nat) (b : Bool) : (s.setKey k b).inputs = s.inputs := by unfold State.setKey; split <;> rfl
@[simp] theorem State.setKey_loadable (k : Nat) (b : Bool) : (s.setKey k b).loadable = s.loadable := by unfold State.setKey; split <;> rfl

@[simp] theorem State.endWait_i (k : Nat) : (s.endWait k).i = s.i := by unfold State.endWait; split <;> rfl
@[simp] theorem State.endWait_pc (k : Nat) : (s.endWait k).pc = s.pc := by unfold State.endWait; split <;> rfl
@[simp] theorem State.endWait_sp (k : Nat) : (s.endWait k).sp = s.sp := by unfold State.endWait; split <;> rfl
@[simp] theorem State.endWait_stack (k : Nat) : (s.endWait k).stack = s.stack := by unfold State.endWait; split <;> rfl
@[simp] theorem State.endWait_dt (k : Nat) : (s.endWait k).dt = s.dt := by unfold State.endWait; split <;> rfl
@[simp] theorem State.endWait_st (k : Nat) : (s.endWait k).st = s.st := by unfold State.endWait; split <;> rfl
@[simp] theorem State.endWait_mem (k : Nat) : (s.endWait k).mem = s.mem := by unfold State.endWait; split <;> rfl
@[simp] theorem State.endWait_disp (k : Nat) : (s.endWait k).disp = s.disp := by unfold State.endWait; split <;> rfl
@[simp] theorem State.endWait_key (k : Nat) : (s.endWait k).key = s.key := by unfold State.endWait; split <;> rfl
@[simp] theorem State.endWait_tacc (k : Nat) : (s.endWait k).tacc = s.tacc := by unfold State.endWait; split <;> rfl
@[simp] theorem State.endWait_cacc (k : Nat) : (s.endWait k).cacc = s.cacc := by unfold State.endWait; split <;> rfl
@[simp] theorem State.endWait_cfg (k : Nat) : (s.endWait k).cfg = s.cfg := by unfold State.endWait; split <;> rfl
@[simp] theorem State.endWait_draws (k : Nat) : (s.endWait k).draws = s.draws := by unfold State.endWait; split <;> rfl
@[simp] theorem State.endWait_inputs (k : Nat) : (s.endWait k).inputs = s.inputs := by unfold State.endWait; split <;> rfl
@[simp] theorem State.endWait_loadable (k : Nat) : (s.endWait k).loadable = s.loadable := by unfold State.endWait; split <;> rfl

@[simp] theorem State.memWriteBlock_v (bs : List Byte) : ∀ (s : State) (a : Nat), (s.memWriteBlock a bs).v = s.v := by
  induction bs with
  | nil => intro s a; rfl
  | cons b bs ih => intro s a; simp [State.memWriteBlock, ih]
@[simp] theorem State.memWriteBlock_i (bs : List Byte) : ∀ (s : State) (a : Nat), (s.memWriteBlock a bs).i = s.i := by
  induction bs with
  | nil => intro s a; rfl
  | cons b bs ih => intro s a; simp [State.memWriteBlock, ih]
@[simp] theorem State.memWriteBlock_pc (bs : List Byte) : ∀ (s : State) (a : Nat), (s.memWriteBlock a bs).pc = s.pc := by
  induction bs with
  | nil => intro s a; rfl
  | cons b bs ih => intro s a; simp [State.memWriteBlock, ih]
@[simp] theorem State.memWriteBlock_sp (bs : List Byte) : ∀ (s : State) (a : Nat), (s.memWriteBlock a bs).sp = s.sp := by
  induction bs with
  | nil => intro s a; rfl
  | cons b bs ih => intro s a; simp [State.memWriteBlock, ih]
@[simp] theorem State.memWriteBlock_stack (bs : List Byte) : ∀ (s : State) (a : Nat), (s.memWriteBlock a bs).stack = s.stack := by
  induction bs with
  | nil => intro s a; rfl
  | cons b bs ih => intro s a; simp [State.memWriteBlock, ih]
@[simp] theorem State.memWriteBlock_dt (bs : List Byte) : ∀ (s : State) (a : Nat), (s.memWriteBlock a bs).dt = s.dt := by
  induction bs with
  | nil => intro s a; rfl
  | cons b bs ih => intro s a; simp [State.memWriteBlock, ih]
@[simp] theorem State.memWriteBlock_st (bs : List Byte) : ∀ (s : State) (a : Nat), (s.memWriteBlock a bs).st = s.st := by
  induction bs with
  | nil => intro s a; rfl
  | cons b bs ih => intro s a; simp [State.memWriteBlock, ih]
@[simp] theorem State.memWriteBlock_disp (bs : List Byte) : ∀ (s : State) (a : Nat), (s.memWriteBlock a bs).disp = s.disp := by
  induction bs with
  | nil => intro s a; rfl
  | cons b bs ih => intro s a; simp [State.memWriteBlock, ih]
@[simp] theorem State.memWriteBlock_key (bs : List Byte) : ∀ (s : State) (a : Nat), (s.memWriteBlock a bs).key = s.key := by
  induction bs with
  | nil => intro s a; rfl
  | cons b bs ih => intro s a; simp [State.memWriteBlock, ih]
@[simp] theorem State.memWriteBlock_mode (bs : List Byte) : ∀ (s : State) (a : Nat), (s.memWriteBlock a bs).mode = s.mode := by
  induction bs with
  | nil => intro s a; rfl
  | cons b bs ih => intro s a; simp [State.memWriteBlock, ih]
@[simp] theorem State.memWriteBlock_tacc (bs : List Byte) : ∀ (s : State) (a : Nat), (s.memWriteBlock a bs).tacc = s.tacc := by
  induction bs with
  | nil => intro s a; rfl
  | cons b bs ih => intro s a; simp [State.memWriteBlock, ih]
@[simp] theorem State.memWriteBlock_cacc (bs : List Byte) : ∀ (s : State) (a : Nat), (s.memWriteBlock a bs).cacc = s.cacc := by
  induction bs with
  | nil => intro s a; rfl
  | cons b bs ih => intro s a; simp [State.memWriteBlock, ih]
@[simp] theorem State.memWriteBlock_cfg (bs : List Byte) : ∀ (s : State) (a : Nat), (s.memWriteBlock a bs).cfg = s.cfg := by
  induction bs with
  | nil => intro s a; rfl
  | cons b bs ih => intro s a; simp [State.memWriteBlock, ih]
@[simp] theorem State.memWriteBlock_draws (bs : List Byte) : ∀ (s : State) (a : Nat), (s.memWriteBlock a bs).draws = s.draws := by
  induction bs with
  | nil => intro s a; rfl
  | cons b bs ih => intro s a; simp [State.memWriteBlock, ih]
@[simp] theorem State.memWriteBlock_inputs (bs : List Byte) : ∀ (s : State) (a : Nat), (s.memWriteBlock a bs).inputs = s.inputs := by
  induction bs with
  | nil => intro s a; rfl
  | cons b bs ih => intro s a; simp [State.memWriteBlock, ih]
@[simp] theorem State.memWriteBlock_loadable (bs : List Byte) : ∀ (s : State) (a : Nat), (s.memWriteBlock a bs).loadable = s.loadable := by
  induction bs with
  | nil => intro s a; rfl
  | cons b bs ih => intro s a; simp [State.memWriteBlock, ih]

@[simp] theorem State.setRegsFrom_i (bs : List Byte) : ∀ (s : State) (k : Nat), (s.setRegsFrom k bs).i = s.i := by
  induction bs with
  | nil => intro s k; rfl
  | cons b bs ih => intro s k; simp [State.setRegsFrom, ih]
@[simp] theorem State.setRegsFrom_pc (bs : List Byte) : ∀ (s : State) (k : Nat), (s.setRegsFrom k bs).pc = s.pc := by
  induction bs with
  | nil => intro s k; rfl
  | cons b bs ih => intro s k; simp [State.setRegsFrom, ih]
@[simp] theorem State.setRegsFrom_sp (bs : List Byte) : ∀ (s : State) (k : Nat), (s.setRegsFrom k bs).sp = s.sp := by
  induction bs with
  | nil => intro s k; rfl
  | cons b bs ih => intro s k; simp [State.setRegsFrom, ih]
@[simp] theorem State.setRegsFrom_stack (bs : List Byte) : ∀ (s : State) (k : Nat), (s.setRegsFrom k bs).stack = s.stack := by
  induction bs with
  | nil => intro s k; rfl
  | cons b bs ih => intro s k; simp [State.setRegsFrom, ih]
@[simp] theorem State.setRegsFrom_dt (bs : List Byte) : ∀ (s : State) (k : Nat), (s.setRegsFrom k bs).dt = s.dt := by
  induction bs with
  | nil => intro s k; rfl
  | cons b bs ih => intro s k; simp [State.setRegsFrom, ih]
@[simp] theorem State.setRegsFrom_st (bs : List Byte) : ∀ (s : State) (k : Nat), (s.setRegsFrom k bs).st = s.st := by
  induction bs with
  | nil => intro s k; rfl
  | cons b bs ih => intro s k; simp [State.setRegsFrom, ih]
@[simp] theorem State.setRegsFrom_mem (bs : List Byte) : ∀ (s : State) (k : Nat), (s.setRegsFrom k bs).mem = s.mem := by
  induction bs with
  | nil => intro s k; rfl
  | cons b bs ih => intro s k; simp [State.setRegsFrom, ih]
@[simp] theorem State.setRegsFrom_disp (bs : List Byte) : ∀ (s : State) (k : Nat), (s.setRegsFrom k bs).disp = s.disp := by
  induction bs with
  | nil => intro s k; rfl
  | cons b bs ih => intro s k; simp [State.setRegsFrom, ih]
@[simp] theorem State.setRegsFrom_key (bs : List Byte) : ∀ (s : State) (k : Nat), (s.setRegsFrom k bs).key = s.key := by
  induction bs with
  | nil => intro s k; rfl
  | cons b bs ih => intro s k; simp [State.setRegsFrom, ih]
@[simp] theorem State.setRegsFrom_mode (bs : List Byte) : ∀ (s : State) (k : Nat), (s.setRegsFrom k bs).mode = s.mode := by
  induction bs with
  | nil => intro s k; rfl
  | cons b bs ih => intro s k; simp [State.setRegsFrom, ih]
@[simp] theorem State.setRegsFrom_tacc (bs : List Byte) : ∀ (s : State) (k : Nat), (s.setRegsFrom k bs).tacc = s.tacc := by
  induction bs with
  | nil => intro s k; rfl
  | cons b bs ih => intro s k; simp [State.setRegsFrom, ih]
@[simp] theorem State.setRegsFrom_cacc (bs : List Byte) : ∀ (s : State) (k : Nat), (s.setRegsFrom k bs).cacc = s.cacc := by
  induction bs with
  | nil => intro s k; rfl
  | cons b bs ih => intro s k; simp [State.setRegsFrom, ih]
@[simp] theorem State.setRegsFrom_cfg (bs : List Byte) : ∀ (s : State) (k : Nat), (s.setRegsFrom k bs).cfg = s.cfg := by
  induction bs with
  | nil => intro s k; rfl
  | cons b bs ih => intro s k; simp [State.setRegsFrom, ih]
@[simp] theorem State.setRegsFrom_draws (bs : List Byte) : ∀ (s : State) (k : Nat), (s.setRegsFrom k bs).draws = s.draws := by
  induction bs with
  | nil => intro s k; rfl
  | cons b bs ih => intro s k; simp [State.setRegsFrom, ih]
@[simp] theorem State.setRegsFrom_inputs (bs : List Byte) : ∀ (s : State) (k : Nat), (s.setRegsFrom k bs).inputs = s.inputs := by
  induction bs with
  | nil => intro s k; rfl
  | cons b bs ih => intro s k; simp [State.setRegsFrom, ih]
@[simp] theorem State.setRegsFrom_loadable (bs : List Byte) : ∀ (s : State) (k : Nat), (s.setRegsFrom k bs).loadable = s.loadable := by
  induction bs with
  | nil => intro s k; rfl
  | cons b bs ih => intro s k; simp [State.setRegsFrom, ih]

end Sys2Proof.Machine
end

