-- ==== Sys2Proof/Laws/Memory.lean ====
section
/-! SUPPORT. The laws of memory (spec 20_memory.md R62, R63): a byte read after a write to it is the byte written, every other byte
is as it was, and every memory operation keeps the canonical form. -/

namespace Sys2Proof.Machine

/-! ### The list -/

theorem lookup_insert_self (font : Font) (a : Nat) (v : Byte) (m : Memory) :
    lookupByte font a (insertByte a v m) = v := by
  induction m with
  | nil => simp [insertByte, lookupByte]
  | cons c m ih =>
    obtain ⟨b, w⟩ := c
    simp only [insertByte]
    split
    · simp [lookupByte, ih, Nat.ne_of_lt (by assumption)]
    · split <;> simp [lookupByte]

theorem lookup_insert_other (font : Font) {a c : Nat} (v : Byte) (m : Memory) (h : c ≠ a) :
    lookupByte font c (insertByte a v m) = lookupByte font c m := by
  induction m with
  | nil => simp [insertByte, lookupByte, Ne.symm h]
  | cons d m ih =>
    obtain ⟨b, w⟩ := d
    simp only [insertByte]
    split
    · simp [lookupByte, ih]
    · split
      · rename_i hb
        subst hb
        simp [lookupByte, Ne.symm h]
      · simp [lookupByte, Ne.symm h]

theorem lookup_remove_self (font : Font) (a : Nat) (m : Memory) :
    lookupByte font a (m.filter (fun c => c.1 != a)) = unlistedByte font a := by
  induction m with
  | nil => rfl
  | cons d m ih =>
    obtain ⟨b, w⟩ := d
    by_cases hb : b = a <;> simp_all [lookupByte]

theorem lookup_remove_other (font : Font) {a c : Nat} (m : Memory) (h : c ≠ a) :
    lookupByte font c (m.filter (fun c => c.1 != a)) = lookupByte font c m := by
  induction m with
  | nil => rfl
  | cons d m ih =>
    obtain ⟨b, w⟩ := d
    by_cases hb : b = a
    · subst hb
      simp_all [lookupByte, Ne.symm h]
    · simp_all [lookupByte]

theorem lookup_store_self (font : Font) (a : Nat) (v : Byte) (m : Memory) :
    lookupByte font a (storeByte font a v m) = v := by
  unfold storeByte
  split
  · rename_i hv
    rw [lookup_remove_self, hv]
  · exact lookup_insert_self font a v m

theorem lookup_store_other (font : Font) {a c : Nat} (v : Byte) (m : Memory) (h : c ≠ a) :
    lookupByte font c (storeByte font a v m) = lookupByte font c m := by
  unfold storeByte
  split
  · exact lookup_remove_other font m h
  · exact lookup_insert_other font v m h

/-! ### The canonical form -/

/-- What the canonical form says of a list with a first entry. -/
theorem memoryWf_cons (font : Font) (a : Nat) (v : Byte) (m : Memory) :
    memoryWf font ((a, v) :: m) = true ↔
      a < 4096 ∧ v ≠ unlistedByte font a ∧ (∀ c ∈ m, a < c.1) ∧ memoryWf font m = true := by
  simp [memoryWf, and_assoc]

theorem memoryWf_remove (font : Font) (a : Nat) (m : Memory) (h : memoryWf font m = true) :
    memoryWf font (m.filter (fun c => c.1 != a)) = true := by
  induction m with
  | nil => rfl
  | cons d m ih =>
    obtain ⟨b, w⟩ := d
    obtain ⟨h1, h2, h3, h4⟩ := (memoryWf_cons font b w m).mp h
    by_cases hb : b = a
    · simp [hb, ih h4]
    · simp only [List.filter]
      rw [show (b != a) = true by simpa using hb]
      exact (memoryWf_cons font b w _).mpr
        ⟨h1, h2, fun c hc => h3 c (List.mem_of_mem_filter hc), ih h4⟩

/-- An inserted entry comes from the list or is the new one. -/
theorem mem_insertByte {a : Nat} {v : Byte} {m : Memory} {c : Host.Cell} (h : c ∈ insertByte a v m) :
    c = (a, v) ∨ c ∈ m := by
  induction m with
  | nil => simpa [insertByte] using h
  | cons d m ih =>
    obtain ⟨b, w⟩ := d
    simp only [insertByte] at h
    split at h
    · rcases List.mem_cons.mp h with h | h
      · simp [h]
      · rcases ih h with h | h <;> simp [h]
    · split at h <;> rcases List.mem_cons.mp h with h | h <;> simp_all

theorem memoryWf_insert (font : Font) {a : Nat} {v : Byte} {m : Memory} (h : memoryWf font m = true) (ha : a < 4096)
    (hv : v ≠ unlistedByte font a) : memoryWf font (insertByte a v m) = true := by
  induction m with
  | nil => simp [insertByte, memoryWf, ha, hv]
  | cons d m ih =>
    obtain ⟨b, w⟩ := d
    obtain ⟨h1, h2, h3, h4⟩ := (memoryWf_cons font b w m).mp h
    simp only [insertByte]
    split
    · rename_i hb
      refine (memoryWf_cons font b w _).mpr ⟨h1, h2, fun c hc => ?_, ih h4⟩
      rcases mem_insertByte hc with rfl | hc
      · exact hb
      · exact h3 c hc
    · split
      · rename_i hb
        subst hb
        exact (memoryWf_cons font _ _ _).mpr ⟨h1, hv, h3, h4⟩
      · refine (memoryWf_cons font _ _ _).mpr ⟨ha, hv, fun c hc => ?_, h⟩
        rcases List.mem_cons.mp hc with rfl | hc
        · simp only; omega
        · have := h3 c hc; omega

/-- A byte store at a memory address keeps the canonical form. -/
theorem memoryWf_store (font : Font) {a : Nat} (v : Byte) {m : Memory} (h : memoryWf font m = true) (ha : a < 4096) :
    memoryWf font (storeByte font a v m) = true := by
  unfold storeByte
  split
  · exact memoryWf_remove font a m h
  · exact memoryWf_insert font h ha (by assumption)

/-! ### The state -/

@[simp] theorem State.memRead_memWrite_self (s : State) (a : Nat) (v : Byte) : (s.memWrite a v).memRead a = v :=
  lookup_store_self _ _ _ _

theorem State.memRead_memWrite_other (s : State) {a c : Nat} (v : Byte) (h : c ≠ a) :
    (s.memWrite a v).memRead c = s.memRead c :=
  lookup_store_other _ _ _ h

/-- A read depends on the memory list and the font alone. -/
theorem State.memRead_congr {s t : State} (hm : t.mem = s.mem) (hc : t.cfg = s.cfg) (a : Nat) :
    t.memRead a = s.memRead a := by
  simp [State.memRead, hm, hc]

/-- A block write leaves every byte outside its range. -/
theorem State.memRead_memWriteBlock_other (bs : List Byte) : ∀ (s : State) (base a : Nat),
    (a < base ∨ base + bs.length ≤ a) → (s.memWriteBlock base bs).memRead a = s.memRead a := by
  induction bs with
  | nil => intro s base a _; rfl
  | cons b bs ih =>
    intro s base a h
    simp only [List.length_cons] at h
    rw [State.memWriteBlock, ih _ _ _ (by omega), State.memRead_memWrite_other _ _ (by omega)]

/-- A block write leaves its `k`-th byte at `base + k`. -/
theorem State.memRead_memWriteBlock_self (bs : List Byte) : ∀ (s : State) (base k : Nat) (h : k < bs.length),
    (s.memWriteBlock base bs).memRead (base + k) = bs[k] := by
  induction bs with
  | nil => intro s base k h; simp at h
  | cons b bs ih =>
    intro s base k h
    cases k with
    | zero =>
      rw [State.memWriteBlock, State.memRead_memWriteBlock_other _ _ _ _ (by omega)]
      simp
    | succ k =>
      have := ih (s.memWrite base b) (base + 1) k (by simpa using h)
      rw [State.memWriteBlock, show base + (k + 1) = base + 1 + k by omega, this]
      rfl

/-- A block write inside memory keeps the canonical form. -/
theorem State.memoryWf_memWriteBlock (bs : List Byte) : ∀ (s : State) (base : Nat),
    memoryWf s.cfg.font s.mem = true → base + bs.length ≤ 4096 →
      memoryWf s.cfg.font (s.memWriteBlock base bs).mem = true := by
  induction bs with
  | nil => intro s base h _; exact h
  | cons b bs ih =>
    intro s base h hb
    simp only [List.length_cons] at hb
    exact ih (s.memWrite base b) (base + 1) (memoryWf_store _ _ h (by omega)) (by omega)

/-- A block write writes memory and nothing else. -/
theorem State.memWriteBlock_eq (bs : List Byte) : ∀ (s : State) (base : Nat),
    s.memWriteBlock base bs = { s with mem := (s.memWriteBlock base bs).mem } := by
  induction bs with
  | nil => intro s base; rfl
  | cons b bs ih =>
    intro s base
    rw [State.memWriteBlock, ih]
    rfl

@[simp] theorem State.memBlock_length (s : State) (n : Nat) : ∀ base, (s.memBlock base n).length = n := by
  induction n with
  | zero => intro base; rfl
  | succ n ih => intro base; simp [State.memBlock, ih]

/-- The `k`-th byte of a block read. -/
theorem State.memBlock_get (s : State) (n : Nat) : ∀ (base k : Nat) (h : k < n),
    (s.memBlock base n)[k]'(by simpa using h) = s.memRead (base + k) := by
  induction n with
  | zero => intro base k h; omega
  | succ n ih =>
    intro base k h
    cases k with
    | zero => rfl
    | succ k =>
      have := ih (base + 1) k (by omega)
      simp only [State.memBlock, List.getElem_cons_succ, this]
      congr 1
      omega

/-- R64: the range check, as an inequality. -/
theorem dataRangeOk_iff (base n : Nat) : dataRangeOk base n = true ↔ n = 0 ∨ base + n ≤ 4096 := by
  simp [dataRangeOk]

/-- The fetch, inside memory. -/
theorem State.fetch_some (s : State) (h : s.pc.toNat ≤ 4094) :
    s.fetch = some (wordOfBytes (s.memRead s.pc.toNat) (s.memRead (s.pc.toNat + 1))) := by
  simp [State.fetch, h]

/-- The fetch, outside memory. -/
theorem State.fetch_none (s : State) (h : 4094 < s.pc.toNat) : s.fetch = none := by
  simp [State.fetch]
  omega

/-! Reads after the updates that do not touch memory. -/

variable (s : State) (a : Nat)

@[simp] theorem State.memRead_advance : s.advance.memRead a = s.memRead a := rfl
@[simp] theorem State.memRead_jump (w : Word) : (s.jump w).memRead a = s.memRead a := rfl
@[simp] theorem State.memRead_setReg (x : Nibble) (b : Byte) : (s.setReg x b).memRead a = s.memRead a := rfl
@[simp] theorem State.memRead_setFlagged (x : Nibble) (c : Bool) (b : Byte) :
    (s.setFlagged x c b).memRead a = s.memRead a := rfl
@[simp] theorem State.memRead_halt (c : Cause) (p : Word) (op : Option Word) : (s.halt c p op).memRead a = s.memRead a := rfl
@[simp] theorem State.memRead_raise (c : Cause) (op : Word) : (s.raise c op).memRead a = s.memRead a := rfl
@[simp] theorem State.memRead_raiseFetch : s.raiseFetch.memRead a = s.memRead a := rfl
@[simp] theorem State.memRead_closeLoad : s.closeLoad.memRead a = s.memRead a := rfl
@[simp] theorem State.memRead_tick : s.tick.memRead a = s.memRead a := rfl
@[simp] theorem State.memRead_skipIf (c : Bool) : (s.skipIf c).memRead a = s.memRead a :=
  State.memRead_congr (by simp) (by simp) a
@[simp] theorem State.memRead_push : s.push.memRead a = s.memRead a := State.memRead_congr (by simp) (by simp) a
@[simp] theorem State.memRead_pop : s.pop.memRead a = s.memRead a := State.memRead_congr (by simp) (by simp) a
@[simp] theorem State.memRead_setRegsFrom (k : Nat) (bs : List Byte) : (s.setRegsFrom k bs).memRead a = s.memRead a :=
  State.memRead_congr (by simp) (by simp) a
@[simp] theorem State.memRead_setKey (k : Nat) (b : Bool) : (s.setKey k b).memRead a = s.memRead a :=
  State.memRead_congr (by simp) (by simp) a
@[simp] theorem State.memRead_endWait (k : Nat) : (s.endWait k).memRead a = s.memRead a :=
  State.memRead_congr (by simp) (by simp) a

end Sys2Proof.Machine
end

