-- ==== Sys2Proof/Laws/Registers.lean ====
section
/-! SUPPORT. The laws of the registers, the return stack, the program counter and the keys: one lemma that says what each
operation does. -/

namespace Sys2Proof.Machine

variable (s : State)

/-! ### General registers -/

@[simp] theorem State.reg_setReg_self (x : Nibble) (b : Byte) : (s.setReg x b).reg x = b := by
  simp [State.reg, State.setReg]

theorem State.reg_setReg_other {x r : Nibble} (b : Byte) (h : r ≠ x) : (s.setReg x b).reg r = s.reg r := by
  have : x.toNat ≠ r.toNat := fun e => h (BitVec.eq_of_toNat_eq e.symm)
  simp [State.reg, State.setReg, this]

/-- What a register holds after a register write. -/
theorem State.reg_setReg (x r : Nibble) (b : Byte) : (s.setReg x b).reg r = if r = x then b else s.reg r := by
  split
  · rename_i h
    rw [h, State.reg_setReg_self]
  · exact State.reg_setReg_other s b (by assumption)

/-- R141: what a register holds after a flag and a result are written. -/
theorem State.reg_setFlagged (x r : Nibble) (c : Bool) (b : Byte) :
    (s.setFlagged x c b).reg r = if r = x then b else if r = regF then flagByte c else s.reg r := by
  rw [State.setFlagged, State.reg_setReg, State.reg_setReg]

/-- A register depends on the register vector alone. -/
theorem State.reg_congr {s t : State} (h : t.v = s.v) (r : Nibble) : t.reg r = s.reg r := by
  simp [State.reg, h]

@[simp] theorem State.reg_advance (r : Nibble) : s.advance.reg r = s.reg r := rfl
@[simp] theorem State.reg_jump (a : Word) (r : Nibble) : (s.jump a).reg r = s.reg r := rfl
@[simp] theorem State.reg_halt (c : Cause) (a : Word) (op : Option Word) (r : Nibble) : (s.halt c a op).reg r = s.reg r := rfl
@[simp] theorem State.reg_raise (c : Cause) (op : Word) (r : Nibble) : (s.raise c op).reg r = s.reg r := rfl
@[simp] theorem State.reg_raiseFetch (r : Nibble) : s.raiseFetch.reg r = s.reg r := rfl
@[simp] theorem State.reg_closeLoad (r : Nibble) : s.closeLoad.reg r = s.reg r := rfl
@[simp] theorem State.reg_tick (r : Nibble) : s.tick.reg r = s.reg r := rfl
@[simp] theorem State.reg_memWrite (a : Nat) (b : Byte) (r : Nibble) : (s.memWrite a b).reg r = s.reg r := rfl
@[simp] theorem State.reg_skipIf (c : Bool) (r : Nibble) : (s.skipIf c).reg r = s.reg r := State.reg_congr (by simp) r
@[simp] theorem State.reg_push (r : Nibble) : s.push.reg r = s.reg r := State.reg_congr (by simp) r
@[simp] theorem State.reg_pop (r : Nibble) : s.pop.reg r = s.reg r := State.reg_congr (by simp) r
@[simp] theorem State.reg_setKey (k : Nat) (b : Bool) (r : Nibble) : (s.setKey k b).reg r = s.reg r :=
  State.reg_congr (by simp) r
@[simp] theorem State.reg_memWriteBlock (a : Nat) (bs : List Byte) (r : Nibble) : (s.memWriteBlock a bs).reg r = s.reg r :=
  State.reg_congr (by simp) r

/-- A block load (R198) leaves the `j`-th byte in register `k + j` and every register outside its range alone. -/
theorem State.reg_setRegsFrom (bs : List Byte) : ∀ (s : State) (k : Nat) (r : Nibble), k + bs.length ≤ 16 →
    (s.setRegsFrom k bs).reg r =
      if h : k ≤ r.toNat ∧ r.toNat < k + bs.length then bs[r.toNat - k]'(by omega) else s.reg r := by
  induction bs with
  | nil =>
    intro s k r _
    rw [dif_neg (by simp only [List.length_nil]; omega)]
    rfl
  | cons b bs ih =>
    intro s k r hk
    simp only [List.length_cons] at hk
    have hkn : (BitVec.ofNat 4 k).toNat = k := by
      simp only [BitVec.toNat_ofNat]
      exact Nat.mod_eq_of_lt (by omega)
    have hr : r = BitVec.ofNat 4 k ↔ r.toNat = k := by
      rw [← BitVec.toNat_inj, hkn]
    rw [State.setRegsFrom, ih _ _ _ (by omega), State.reg_setReg]
    simp only [List.length_cons, hr]
    by_cases h1 : k + 1 ≤ r.toNat ∧ r.toNat < k + 1 + bs.length
    · rw [dif_pos h1, dif_pos (by omega)]
      rw [List.getElem_cons]
      rw [dif_neg (by omega)]
      congr 1
    · rw [dif_neg h1]
      by_cases h2 : r.toNat = k
      · rw [if_pos h2, dif_pos (by omega), List.getElem_cons, dif_pos (by omega)]
      · rw [if_neg h2, dif_neg (by omega)]

@[simp] theorem State.regBlock_length (x : Nibble) : (s.regBlock x).length = x.toNat + 1 := by
  have := x.isLt
  simp [State.regBlock]
  omega

/-- The `k`-th byte of a block store is register `k` (R197). -/
theorem State.regBlock_get (x : Nibble) (k : Nat) (h : k < (s.regBlock x).length) (hk : k < 16) :
    (s.regBlock x)[k] = s.v[k] := by
  simp [State.regBlock]

/-! ### The program counter -/

/-- R130: where a skip leaves the program counter. -/
theorem State.skipIf_pc (c : Bool) : (s.skipIf c).pc = if c then s.pc + 2 else s.pc := by
  cases c <;> rfl

/-- R130: a skip writes the program counter and nothing else. -/
theorem State.skipIf_eq (c : Bool) : s.skipIf c = { s with pc := (s.skipIf c).pc } := by
  cases c <;> rfl

/-! ### The return stack -/

/-- R124: a push, while there is room. -/
theorem State.push_eq (h : s.sp.toNat < 16) :
    s.push = { s with stack := s.stack.set s.sp.toNat s.pc h, sp := s.sp + 1 } := by
  simp [State.push, h]

/-- A depth that is not 0 goes down by 1. -/
theorem toNat_sub_one {b : Byte} (h : b.toNat ≠ 0) : (b - 1).toNat = b.toNat - 1 := by
  bv_omega

/-- R122: a pop, of a stack that is not empty. -/
theorem State.pop_eq (h0 : s.sp.toNat ≠ 0) (h : s.sp.toNat ≤ 16) :
    s.pop = { s with sp := s.sp - 1, pc := s.stack[s.sp.toNat - 1]'(by omega) } := by
  have h1 := toNat_sub_one h0
  have h2 : (s.sp - 1).toNat < 16 := by omega
  simp only [State.pop, h2, dif_pos]
  congr 1
  simp only [h1]

/-! ### Modes -/

@[simp] theorem State.isHalted_halt (c : Cause) (a : Word) (op : Option Word) : (s.halt c a op).isHalted = true := rfl
@[simp] theorem State.isHalted_raise (c : Cause) (op : Word) : (s.raise c op).isHalted = true := rfl

/-- Whether a run is over depends on the mode alone. -/
theorem State.isHalted_congr {s t : State} (h : t.mode = s.mode) : t.isHalted = s.isHalted := by
  simp [State.isHalted, h]

/-! ### Keys -/

/-- R229, R230: a key event writes its own flag and no other. -/
theorem State.setKey_get (k : Nat) (b : Bool) (j : Fin 16) :
    (s.setKey k b).key[j] = if j.val = k then b else s.key[j] := by
  unfold State.setKey
  split
  · rename_i h
    simp only [Fin.getElem_fin, Vector.getElem_set]
    by_cases hj : j.val = k
    · simp [hj]
    · simp [hj, Ne.symm hj]
  · rename_i h
    have := j.isLt
    rw [if_neg (by omega)]

/-- `KEY[k]` for a key number in range (R180, R181). -/
theorem State.keyFlag_some (k : Byte) (h : k.toNat < 16) : s.keyFlag k = some s.key[k.toNat] := by
  simp [State.keyFlag, h]

/-- `KEY[k]` for a key number out of range (R182). -/
theorem State.keyFlag_none (k : Byte) (h : 15 < k.toNat) : s.keyFlag k = none := by
  simp [State.keyFlag]
  omega

end Sys2Proof.Machine
end

