-- ==== Sys2Proof/Laws/Display.lean ====
section
/-! SUPPORT. The laws of drawing (spec 44_draw.md): what one pixel, one row and a whole sprite do to each cell and to the collision
result. -/

namespace Sys2Proof.Machine

/-- A place outside the grid holds no set pixel. -/
theorem displayCell_outside (d : Display) {x y : Nat} (h : ¬ (x < 64 ∧ y < 32)) : displayCell d x y = false := by
  simp only [displayCell, h, dif_neg, not_false_eq_true]

theorem displayCell_clear (x y : Nat) : displayCell clearDisplay x y = false := by
  unfold displayCell clearDisplay
  split <;> simp

/-- Two displays with the same cells are the same display. -/
theorem display_ext {d e : Display} (h : ∀ i j, i < 64 → j < 32 → displayCell d i j = displayCell e i j) : d = e := by
  ext k hk
  have hc := h (k % 64) (k / 64) (by omega) (by omega)
  unfold displayCell at hc
  rw [dif_pos (by omega), dif_pos (by omega)] at hc
  have hk' : 64 * (k / 64) + k % 64 = k := by omega
  simpa [hk'] using hc

/-- R170, R172: one 1 bit toggles its own cell, if that is visible, and no other. -/
theorem displayCell_plot (x y : Nat) (c : Canvas) {i j : Nat} (h : i < 64 ∧ j < 32) :
    displayCell (plot x y c).disp i j = (displayCell c.disp i j ^^ (decide (i = x) && decide (j = y))) := by
  unfold plot
  split
  · rename_i hp
    simp only [displayCell, h, and_self, dif_pos, Vector.getElem_set]
    by_cases hx : i = x
    · by_cases hy : j = y
      · subst hx hy
        simp
      · rw [if_neg (by omega)]
        simp [hy]
    · rw [if_neg (by omega)]
      simp [hx]
  · rename_i hp
    have : (decide (i = x) && decide (j = y)) = false := by
      simp only [Bool.and_eq_false_iff, decide_eq_false_iff_not]
      by_contra hc
      simp only [not_or, Decidable.not_not] at hc
      exact hp ⟨hc.1 ▸ h.1, hc.2 ▸ h.2⟩
    simp [this]

/-- R173: one 1 bit collides iff its cell is visible and set. -/
theorem plot_collision (x y : Nat) (c : Canvas) :
    (plot x y c).collision = (c.collision || displayCell c.disp x y) := by
  unfold plot displayCell
  split <;> simp

/-- R171: the bits `ks` of a row, no position twice, toggle the visible cells under its 1 bits. -/
theorem displayCell_drawBits (b : Byte) (x0 y : Nat) {i j : Nat} (h : i < 64 ∧ j < 32) (ks : List Nat) (hn : ks.Nodup) :
    ∀ c : Canvas, displayCell (drawBits b x0 y ks c).disp i j =
      (displayCell c.disp i j ^^ decide (j = y ∧ ∃ k ∈ ks, b.getLsbD (7 - k) = true ∧ i = x0 + k)) := by
  induction ks with
  | nil => intro c; simp [drawBits]
  | cons k ks ih =>
    intro c
    obtain ⟨hk, hn⟩ := List.nodup_cons.mp hn
    rw [drawBits, ih hn]
    by_cases hb : b.getLsbD (7 - k) = true
    · rw [if_pos hb, displayCell_plot _ _ _ h]
      by_cases hj : j = y
      · by_cases hi : i = x0 + k
        · have hno : ¬ ∃ k' ∈ ks, b.getLsbD (7 - k') = true ∧ i = x0 + k' := by
            rintro ⟨k', hk', -, e⟩
            exact hk ((show k' = k by omega) ▸ hk')
          have hyes : ∃ k' ∈ k :: ks, b.getLsbD (7 - k') = true ∧ i = x0 + k' := ⟨k, by simp, hb, hi⟩
          have e1 : decide (j = y ∧ ∃ k' ∈ ks, b.getLsbD (7 - k') = true ∧ i = x0 + k') = false :=
            decide_eq_false fun h => hno h.2
          have e2 : decide (j = y ∧ ∃ k' ∈ k :: ks, b.getLsbD (7 - k') = true ∧ i = x0 + k') = true :=
            decide_eq_true ⟨hj, hyes⟩
          rw [e1, e2]
          simp [hi, hj]
        · simp [hi, hj]
      · simp [hj]
    · rw [if_neg hb]
      simp [hb]

/-- R173: the bits `ks` of a row, no position twice, collide iff one of its 1 bits stands on a visible set cell. -/
theorem drawBits_collision (b : Byte) (x0 y : Nat) (ks : List Nat) (hn : ks.Nodup) :
    ∀ c : Canvas, (drawBits b x0 y ks c).collision =
      (c.collision || decide (∃ k ∈ ks, b.getLsbD (7 - k) = true ∧ displayCell c.disp (x0 + k) y = true)) := by
  induction ks with
  | nil => intro c; simp [drawBits]
  | cons k ks ih =>
    intro c
    obtain ⟨hk, hn⟩ := List.nodup_cons.mp hn
    rw [drawBits, ih hn]
    by_cases hb : b.getLsbD (7 - k) = true
    · rw [if_pos hb, plot_collision]
      have same : (∃ k' ∈ ks, b.getLsbD (7 - k') = true ∧ displayCell (plot (x0 + k) y c).disp (x0 + k') y = true) ↔
          (∃ k' ∈ ks, b.getLsbD (7 - k') = true ∧ displayCell c.disp (x0 + k') y = true) := by
        refine exists_congr fun k' => and_congr_right fun hk' => and_congr_right fun _ => ?_
        have hne : k' ≠ k := fun e => hk (e ▸ hk')
        by_cases hv : x0 + k' < 64 ∧ y < 32
        · rw [displayCell_plot _ _ _ hv]
          simp [hne]
        · rw [displayCell_outside _ hv, displayCell_outside _ hv]
      simp only [same, List.mem_cons, exists_eq_or_imp, hb, true_and, Bool.or_assoc]
      congr 1
      by_cases hc : displayCell c.disp (x0 + k) y = true <;> simp [hc]
    · rw [if_neg hb]
      simp [hb]

/-- The eight columns of a row: its 1 bits, by place. -/
theorem spriteHits_row (x0 y : Nat) (b : Byte) (bs : List Byte) (i j : Nat) :
    spriteHits x0 y (b :: bs) i j =
      (decide (j = y ∧ ∃ k ∈ ([0, 1, 2, 3, 4, 5, 6, 7] : List Nat), b.getLsbD (7 - k) = true ∧ i = x0 + k) ||
        spriteHits x0 (y + 1) bs i j) := by
  have cols : (∃ k ∈ ([0, 1, 2, 3, 4, 5, 6, 7] : List Nat), b.getLsbD (7 - k) = true ∧ i = x0 + k) ↔
      (x0 ≤ i ∧ i < x0 + 8) ∧ b.getLsbD (7 - (i - x0)) = true := by
    constructor
    · rintro ⟨k, hk, hb, rfl⟩
      have : k < 8 := by simp at hk; omega
      exact ⟨by omega, by rwa [Nat.add_sub_cancel_left]⟩
    · rintro ⟨hi, hb⟩
      have hm : ∀ n : Nat, n < 8 → n ∈ [0, 1, 2, 3, 4, 5, 6, 7] := by decide
      exact ⟨i - x0, hm _ (by omega), hb, by omega⟩
  simp only [cols]
  unfold spriteHits
  by_cases hj : j = y
  · subst hj
    by_cases h1 : x0 ≤ i <;> by_cases h2 : i < x0 + 8 <;> simp [h1, h2]
  · by_cases h3 : y ≤ j
    · have h4 : y + 1 ≤ j := by omega
      have h5 : j - y = (j - (y + 1)) + 1 := by omega
      simp [hj, h3, h4, h5]
    · have h4 : ¬ (y + 1 ≤ j) := by omega
      simp [hj, h3, h4]

/-- A row of a sprite below another hits no cell of that one. -/
theorem spriteHits_above (x0 y : Nat) (bs : List Byte) (i : Nat) : spriteHits x0 (y + 1) bs i y = false := by
  simp [spriteHits]

/-- R173: the display after a sprite is the symmetric difference of the display before and the sprite's visible 1 bits. -/
theorem displayCell_drawRows (x0 : Nat) {i j : Nat} (h : i < 64 ∧ j < 32) (bs : List Byte) :
    ∀ (y : Nat) (c : Canvas),
      displayCell (drawRows x0 y bs c).disp i j = (displayCell c.disp i j ^^ spriteHits x0 y bs i j) := by
  induction bs with
  | nil => intro y c; simp [drawRows, spriteHits]
  | cons b bs ih =>
    intro y c
    rw [drawRows, ih, displayCell_drawBits b x0 y h _ (by decide), spriteHits_row, Bool.xor_assoc]
    congr 1
    by_cases hj : j = y
    · subst hj
      rw [spriteHits_above]
      simp
    · simp [hj]

/-- R173: a sprite collides iff one of its visible 1 bits stands on a cell that was set before. -/
theorem drawRows_collision (x0 : Nat) (bs : List Byte) :
    ∀ (y : Nat) (c : Canvas), ((drawRows x0 y bs c).collision = true ↔
      c.collision = true ∨ ∃ i j, i < 64 ∧ j < 32 ∧ spriteHits x0 y bs i j = true ∧ displayCell c.disp i j = true) := by
  induction bs with
  | nil => intro y c; simp [drawRows, spriteHits]
  | cons b bs ih =>
    intro y c
    rw [drawRows, ih, drawBits_collision b x0 y _ (by decide), Bool.or_eq_true, decide_eq_true_iff, or_assoc]
    refine or_congr_right ?_
    constructor
    · rintro (⟨k, hk, hb, hd⟩ | ⟨i, j, hi, hj, hs, hd⟩)
      · have hv : x0 + k < 64 ∧ y < 32 := by
          by_contra hv
          rw [displayCell_outside _ hv] at hd
          simp at hd
        refine ⟨x0 + k, y, hv.1, hv.2, ?_, hd⟩
        rw [spriteHits_row, Bool.or_eq_true, decide_eq_true_iff]
        exact .inl ⟨rfl, k, hk, hb, rfl⟩
      · have hjy : j ≠ y := by
          rintro rfl
          rw [spriteHits_above] at hs
          simp at hs
        refine ⟨i, j, hi, hj, ?_, ?_⟩
        · rw [spriteHits_row, hs, Bool.or_true]
        · rw [displayCell_drawBits b x0 y ⟨hi, hj⟩ _ (by decide)] at hd
          simpa [hjy] using hd
    · rintro ⟨i, j, hi, hj, hs, hd⟩
      rw [spriteHits_row, Bool.or_eq_true, decide_eq_true_iff] at hs
      rcases hs with ⟨rfl, k, hk, hb, rfl⟩ | hs
      · exact .inl ⟨k, hk, hb, hd⟩
      · refine .inr ⟨i, j, hi, hj, hs, ?_⟩
        have hjy : j ≠ y := by
          rintro rfl
          rw [spriteHits_above] at hs
          simp at hs
        rw [displayCell_drawBits b x0 y ⟨hi, hj⟩ _ (by decide)]
        simpa [hjy] using hd

end Sys2Proof.Machine
end

