-- ==== Sys2Proof/Laws/Encoding.lean ====
section
/-! SUPPORT. The laws of the instruction formats (spec 30_encoding.md R91, R92): each field read back from a laid-out word, and what
a row's mask leaves of it. -/

namespace Sys2Proof

@[simp] theorem fieldF_formatA (f : Nibble) (nnn : Addr) : fieldF (formatA f nnn) = f := by
  ext i hi
  simp only [fieldF, formatA, BitVec.getElem_extractLsb', BitVec.getLsbD_or, BitVec.getLsbD_shiftLeft,
    BitVec.getLsbD_setWidth]
  interval_cases i <;> simp

@[simp] theorem fieldNNN_formatA (f : Nibble) (nnn : Addr) : fieldNNN (formatA f nnn) = nnn := by
  ext i hi
  simp only [fieldNNN, formatA, BitVec.getElem_extractLsb', BitVec.getLsbD_or, BitVec.getLsbD_shiftLeft,
    BitVec.getLsbD_setWidth]
  interval_cases i <;> simp

@[simp] theorem fieldF_formatXB (f x : Nibble) (nn : Byte) : fieldF (formatXB f x nn) = f := by
  ext i hi
  simp only [fieldF, formatXB, BitVec.getElem_extractLsb', BitVec.getLsbD_or, BitVec.getLsbD_shiftLeft,
    BitVec.getLsbD_setWidth]
  interval_cases i <;> simp

@[simp] theorem fieldX_formatXB (f x : Nibble) (nn : Byte) : fieldX (formatXB f x nn) = x := by
  ext i hi
  simp only [fieldX, formatXB, BitVec.getElem_extractLsb', BitVec.getLsbD_or, BitVec.getLsbD_shiftLeft,
    BitVec.getLsbD_setWidth]
  interval_cases i <;> simp

@[simp] theorem fieldNN_formatXB (f x : Nibble) (nn : Byte) : fieldNN (formatXB f x nn) = nn := by
  ext i hi
  simp only [fieldNN, formatXB, BitVec.getElem_extractLsb', BitVec.getLsbD_or, BitVec.getLsbD_shiftLeft,
    BitVec.getLsbD_setWidth]
  interval_cases i <;> simp

@[simp] theorem fieldF_formatXYN (f x y n : Nibble) : fieldF (formatXYN f x y n) = f := by
  ext i hi
  simp only [fieldF, formatXYN, BitVec.getElem_extractLsb', BitVec.getLsbD_or, BitVec.getLsbD_shiftLeft,
    BitVec.getLsbD_setWidth]
  interval_cases i <;> simp

@[simp] theorem fieldX_formatXYN (f x y n : Nibble) : fieldX (formatXYN f x y n) = x := by
  ext i hi
  simp only [fieldX, formatXYN, BitVec.getElem_extractLsb', BitVec.getLsbD_or, BitVec.getLsbD_shiftLeft,
    BitVec.getLsbD_setWidth]
  interval_cases i <;> simp

@[simp] theorem fieldY_formatXYN (f x y n : Nibble) : fieldY (formatXYN f x y n) = y := by
  ext i hi
  simp only [fieldY, formatXYN, BitVec.getElem_extractLsb', BitVec.getLsbD_or, BitVec.getLsbD_shiftLeft,
    BitVec.getLsbD_setWidth]
  interval_cases i <;> simp

@[simp] theorem fieldN_formatXYN (f x y n : Nibble) : fieldN (formatXYN f x y n) = n := by
  ext i hi
  simp only [fieldN, formatXYN, BitVec.getElem_extractLsb', BitVec.getLsbD_or, BitVec.getLsbD_shiftLeft,
    BitVec.getLsbD_setWidth]
  interval_cases i <;> simp

/-- R65: the two bytes of a word, put together again, are the word. -/
@[simp] theorem wordOfBytes_bytes (op : Word) : wordOfBytes (firstByte op) (secondByte op) = op := by
  ext i hi
  simp only [wordOfBytes, firstByte, secondByte, BitVec.getElem_or, BitVec.getElem_shiftLeft, BitVec.getElem_setWidth,
    BitVec.getLsbD_extractLsb']
  interval_cases i <;> simp

/-- An address word is its family and its address, laid out again. -/
theorem formatA_fields (op : Word) : formatA (fieldF op) (fieldNNN op) = op := by
  ext i hi
  simp only [fieldF, fieldNNN, formatA, BitVec.getElem_or, BitVec.getElem_shiftLeft, BitVec.getElem_setWidth,
    BitVec.getLsbD_extractLsb']
  interval_cases i <;> simp

/-- A word is its family, its `X` and its `NN`, laid out again. -/
theorem formatXB_fields (op : Word) : formatXB (fieldF op) (fieldX op) (fieldNN op) = op := by
  ext i hi
  simp only [fieldF, fieldX, fieldNN, formatXB, BitVec.getElem_or, BitVec.getElem_shiftLeft, BitVec.getElem_setWidth,
    BitVec.getLsbD_extractLsb']
  interval_cases i <;> simp

/-- A word is its four nibbles, laid out again. -/
theorem formatXYN_fields (op : Word) : formatXYN (fieldF op) (fieldX op) (fieldY op) (fieldN op) = op := by
  ext i hi
  simp only [fieldF, fieldX, fieldY, fieldN, formatXYN, BitVec.getElem_or, BitVec.getElem_shiftLeft,
    BitVec.getElem_setWidth, BitVec.getLsbD_extractLsb']
  interval_cases i <;> simp

/-- The mask of an address row keeps the family alone. -/
theorem formatA_mask (f : Nibble) (nnn : Addr) : formatA f nnn &&& 0xF000 = formatA f 0 := by
  ext i hi
  simp only [formatA, BitVec.getElem_and, BitVec.getElem_or, BitVec.getElem_shiftLeft, BitVec.getElem_setWidth]
  interval_cases i <;> simp

/-- The mask of a register and byte row keeps the family alone. -/
theorem formatXB_mask (f x : Nibble) (nn : Byte) : formatXB f x nn &&& 0xF000 = formatXB f 0 0 := by
  ext i hi
  simp only [formatXB, BitVec.getElem_and, BitVec.getElem_or, BitVec.getElem_shiftLeft, BitVec.getElem_setWidth]
  interval_cases i <;> simp

/-- The mask of a register row with a fixed byte keeps the family and the byte. -/
theorem formatXF_mask (f x : Nibble) (nn : Byte) : formatXB f x nn &&& 0xF0FF = formatXB f 0 nn := by
  ext i hi
  simp only [formatXB, BitVec.getElem_and, BitVec.getElem_or, BitVec.getElem_shiftLeft, BitVec.getElem_setWidth]
  interval_cases i <;> simp

/-- The mask of a two-register row keeps the family and the function nibble. -/
theorem formatXY_mask (f x y n : Nibble) : formatXYN f x y n &&& 0xF00F = formatXYN f 0 0 n := by
  ext i hi
  simp only [formatXYN, BitVec.getElem_and, BitVec.getElem_or, BitVec.getElem_shiftLeft, BitVec.getElem_setWidth]
  interval_cases i <;> simp

/-- The mask of the draw row keeps the family alone. -/
theorem formatXYN_mask (f x y n : Nibble) : formatXYN f x y n &&& 0xF000 = formatXYN f 0 0 0 := by
  ext i hi
  simp only [formatXYN, BitVec.getElem_and, BitVec.getElem_or, BitVec.getElem_shiftLeft, BitVec.getElem_setWidth]
  interval_cases i <;> simp

end Sys2Proof
end

