-- ==== Sys2Proof/Laws/PerInstr.lean ====
section
/-! SUPPORT. Statements made per instruction. FixedBits (spec 30_encoding.md R96): the word of an instruction, under its row's mask, is
its row's match, whatever the operands. -/

namespace Sys2Proof.Laws.FixedBits

/-- R96: `op AND mask = match` for the word of the instruction. -/
def Statement (i : Instr) : Prop := encode i &&& (opcodeRow i).mask = (opcodeRow i).pattern

theorem cls : Statement .cls := by
  unfold Statement
  decide

theorem ret : Statement .ret := by
  unfold Statement
  decide

theorem jp (nnn : Addr) : Statement (.jp nnn) := by
  simp only [Statement, encode, opcodeRow, formatA_mask]
  decide

theorem call (nnn : Addr) : Statement (.call nnn) := by
  simp only [Statement, encode, opcodeRow, formatA_mask]
  decide

theorem seVxNn (x : Nibble) (nn : Byte) : Statement (.seVxNn x nn) := by
  simp only [Statement, encode, opcodeRow, formatXB_mask]
  decide

theorem sneVxNn (x : Nibble) (nn : Byte) : Statement (.sneVxNn x nn) := by
  simp only [Statement, encode, opcodeRow, formatXB_mask]
  decide

theorem seVxVy (x y : Nibble) : Statement (.seVxVy x y) := by
  simp only [Statement, encode, opcodeRow, formatXY_mask]
  decide

theorem sneVxVy (x y : Nibble) : Statement (.sneVxVy x y) := by
  simp only [Statement, encode, opcodeRow, formatXY_mask]
  decide

theorem ldVxNn (x : Nibble) (nn : Byte) : Statement (.ldVxNn x nn) := by
  simp only [Statement, encode, opcodeRow, formatXB_mask]
  decide

theorem addVxNn (x : Nibble) (nn : Byte) : Statement (.addVxNn x nn) := by
  simp only [Statement, encode, opcodeRow, formatXB_mask]
  decide

theorem ldVxVy (x y : Nibble) : Statement (.ldVxVy x y) := by
  simp only [Statement, encode, opcodeRow, formatXY_mask]
  decide

theorem orVxVy (x y : Nibble) : Statement (.orVxVy x y) := by
  simp only [Statement, encode, opcodeRow, formatXY_mask]
  decide

theorem andVxVy (x y : Nibble) : Statement (.andVxVy x y) := by
  simp only [Statement, encode, opcodeRow, formatXY_mask]
  decide

theorem xorVxVy (x y : Nibble) : Statement (.xorVxVy x y) := by
  simp only [Statement, encode, opcodeRow, formatXY_mask]
  decide

theorem addVxVy (x y : Nibble) : Statement (.addVxVy x y) := by
  simp only [Statement, encode, opcodeRow, formatXY_mask]
  decide

theorem subVxVy (x y : Nibble) : Statement (.subVxVy x y) := by
  simp only [Statement, encode, opcodeRow, formatXY_mask]
  decide

theorem shrVxVy (x y : Nibble) : Statement (.shrVxVy x y) := by
  simp only [Statement, encode, opcodeRow, formatXY_mask]
  decide

theorem subnVxVy (x y : Nibble) : Statement (.subnVxVy x y) := by
  simp only [Statement, encode, opcodeRow, formatXY_mask]
  decide

theorem shlVxVy (x y : Nibble) : Statement (.shlVxVy x y) := by
  simp only [Statement, encode, opcodeRow, formatXY_mask]
  decide

theorem ldI (nnn : Addr) : Statement (.ldI nnn) := by
  simp only [Statement, encode, opcodeRow, formatA_mask]
  decide

theorem rnd (x : Nibble) (nn : Byte) : Statement (.rnd x nn) := by
  simp only [Statement, encode, opcodeRow, formatXB_mask]
  decide

theorem drw (x y n : Nibble) : Statement (.drw x y n) := by
  simp only [Statement, encode, opcodeRow, formatXYN_mask]
  decide

theorem skp (x : Nibble) : Statement (.skp x) := by
  simp only [Statement, encode, opcodeRow, formatXF_mask]
  decide

theorem sknp (x : Nibble) : Statement (.sknp x) := by
  simp only [Statement, encode, opcodeRow, formatXF_mask]
  decide

theorem ldVxDt (x : Nibble) : Statement (.ldVxDt x) := by
  simp only [Statement, encode, opcodeRow, formatXF_mask]
  decide

theorem ldVxK (x : Nibble) : Statement (.ldVxK x) := by
  simp only [Statement, encode, opcodeRow, formatXF_mask]
  decide

theorem ldDtVx (x : Nibble) : Statement (.ldDtVx x) := by
  simp only [Statement, encode, opcodeRow, formatXF_mask]
  decide

theorem ldStVx (x : Nibble) : Statement (.ldStVx x) := by
  simp only [Statement, encode, opcodeRow, formatXF_mask]
  decide

theorem addIVx (x : Nibble) : Statement (.addIVx x) := by
  simp only [Statement, encode, opcodeRow, formatXF_mask]
  decide

theorem ldFVx (x : Nibble) : Statement (.ldFVx x) := by
  simp only [Statement, encode, opcodeRow, formatXF_mask]
  decide

theorem ldBVx (x : Nibble) : Statement (.ldBVx x) := by
  simp only [Statement, encode, opcodeRow, formatXF_mask]
  decide

theorem ldMemVx (x : Nibble) : Statement (.ldMemVx x) := by
  simp only [Statement, encode, opcodeRow, formatXF_mask]
  decide

theorem ldVxMem (x : Nibble) : Statement (.ldVxMem x) := by
  simp only [Statement, encode, opcodeRow, formatXF_mask]
  decide

end Sys2Proof.Laws.FixedBits
end

