-- ==== Sys2Proof/Laws/Time.lean ====
section
/-! SUPPORT. The laws of time (spec 60_exceptions.md R225 to R228): what a floor is, what a tick does, and what the timer loop does
in all. -/

namespace Sys2Proof.Machine

/-- `RATE` is positive (00_scope.md R9). -/
theorem rateQ_pos (c : Config) : 0 < c.rateQ := by
  have := c.rate.2
  unfold Config.rateQ
  exact_mod_cast this

/-- The floor of a number that is not negative, as a natural number, is at most it and within 1 of it. -/
theorem floor_toNat_bounds {q : Rat} (h : 0 ≤ q) :
    (q.floor.toNat : Rat) ≤ q ∧ q < (q.floor.toNat : Rat) + 1 := by
  have h0 : 0 ≤ q.floor := Rat.le_floor_iff.mpr (by simpa using h)
  have e : (q.floor.toNat : Rat) = (q.floor : Rat) := by
    have : (q.floor.toNat : Int) = q.floor := Int.toNat_of_nonneg h0
    exact_mod_cast this
  have hlt := Rat.lt_floor_add_one q
  push_cast at hlt
  rw [e]
  exact ⟨Rat.floor_le q, hlt⟩

/-- The floor is the one natural number at most `q` and within 1 of it. -/
theorem floor_toNat_eq {q : Rat} {n : Nat} (h : (n : Rat) ≤ q) (h' : q < (n : Rat) + 1) : q.floor.toNat = n := by
  have h0 : (0 : Rat) ≤ n := by exact_mod_cast Nat.zero_le n
  obtain ⟨hl, hu⟩ := floor_toNat_bounds (h0.trans h)
  have h1 : n < q.floor.toNat + 1 := by exact_mod_cast h.trans_lt hu
  have h2 : q.floor.toNat < n + 1 := by exact_mod_cast hl.trans_lt h'
  omega

/-- R228: a timer counts down and stops at 0. -/
theorem tick_timer (b : Byte) : (if b = 0 then 0 else b - 1 : Byte).toNat = b.toNat - 1 := by
  split <;> bv_omega

/-- R227 step 2: with `n` whole ticks of time in `TACC`, the loop makes `n` ticks and takes their time, and writes nothing
else. -/
theorem timerLoop_eq (n : Nat) : ∀ s : State, 0 ≤ s.tacc → n = (s.tacc * 60).floor.toNat →
    (timerLoop n s).dt.toNat = s.dt.toNat - n ∧ (timerLoop n s).st.toNat = s.st.toNat - n ∧
    (timerLoop n s).tacc = s.tacc - n / 60 ∧
    timerLoop n s = { s with dt := (timerLoop n s).dt, st := (timerLoop n s).st, tacc := (timerLoop n s).tacc } := by
  induction n with
  | zero => intro s _ _; simp [timerLoop]
  | succ n ih =>
    intro s h0 hn
    obtain ⟨f1, f2⟩ := floor_toNat_bounds (q := s.tacc * 60) (by linarith)
    rw [← hn] at f1 f2
    push_cast at f1 f2
    have nn : (0 : Rat) ≤ n := by exact_mod_cast Nat.zero_le n
    have ht : tickInterval ≤ s.tacc := by unfold tickInterval; linarith
    have hrest : n = ((s.tacc - tickInterval) * 60).floor.toNat :=
      (floor_toNat_eq (by unfold tickInterval; linarith) (by unfold tickInterval; linarith)).symm
    obtain ⟨hd, hs, hacc, heq⟩ := ih ({ s with tacc := s.tacc - tickInterval }.tick) (by simpa using ht) hrest
    have hdt := tick_timer s.dt
    have hst := tick_timer s.st
    rw [timerLoop, if_pos ht]
    refine ⟨?_, ?_, ?_, ?_⟩
    · rw [hd]; simp only [State.tick]; omega
    · rw [hs]; simp only [State.tick]; omega
    · rw [hacc]; simp only [State.tick, tickInterval]; push_cast; ring
    · rw [heq]; rfl

/-- R227: the timer loop writes the timers and `TACC`, and nothing else, however long it runs. -/
theorem timerLoop_writes (n : Nat) : ∀ s : State,
    timerLoop n s = { s with dt := (timerLoop n s).dt, st := (timerLoop n s).st, tacc := (timerLoop n s).tacc } := by
  induction n with
  | zero => intro s; rfl
  | succ n ih =>
    intro s
    unfold timerLoop
    split
    · rw [ih]; rfl
    · rfl

/-- R227: a timer update writes the timers and `TACC`, and nothing else. -/
theorem State.timerUpdate_writes (s : State) (dt : Rat) :
    s.timerUpdate dt =
      { s with dt := (s.timerUpdate dt).dt, st := (s.timerUpdate dt).st, tacc := (s.timerUpdate dt).tacc } := by
  unfold State.timerUpdate
  rw [timerLoop_writes]

/-- R227: what a timer loop leaves in the timers and in `TACC` depends on nothing but them. -/
theorem timerLoop_congr (n : Nat) : ∀ s u : State, u.dt = s.dt → u.st = s.st → u.tacc = s.tacc →
    (timerLoop n u).dt = (timerLoop n s).dt ∧ (timerLoop n u).st = (timerLoop n s).st ∧
      (timerLoop n u).tacc = (timerLoop n s).tacc := by
  induction n with
  | zero => intro s u hd hs ht; exact ⟨hd, hs, ht⟩
  | succ n ih =>
    intro s u hd hs ht
    unfold timerLoop
    rw [ht]
    split
    · exact ih _ _ (by simp only [State.tick, hd]) (by simp only [State.tick, hs]) rfl
    · exact ⟨hd, hs, ht⟩

end Sys2Proof.Machine
end

