-- ==== Sys2Proof/Tests/Slice0.lean ====
section
/-! SUPPORT. Small tests of single steps, with results from spec/95_test_vectors.md (its table or program named at each group),
the words of every instruction written out from 30_encoding.md R96, and for every statement with hypotheses a state and
operands that meet them. -/

namespace Sys2Proof.Tests

open Sys2Proof.Machine

/-! ### Helpers -/

/-- The state a step answers, if it answers one. -/
def next? : Host.Outcome State Fault Refusal → Option State
  | .next t => some t
  | .fault _ => none
  | .refused _ => none

theorem exists_next {o : Host.Outcome State Fault Refusal} (h : (next? o).isSome = true) : ∃ t, o = .next t := by
  cases o with
  | next t => exact ⟨t, rfl⟩
  | fault f => simp [next?] at h
  | refused r => simp [next?] at h

/-- One step with the word `w` at the program counter. -/
def run (s : State) (w : Nat) : Option State := next? (step (s.withFetchWord 16 w))

/-- `s` with these registers. -/
def regs (s : State) (l : List (Nibble × Byte)) : State := l.foldl (fun s p => s.setReg p.1 p.2) s

/-- `s` with these cells set. -/
def cells (s : State) (l : List (Nat × Nat)) : State :=
  { s with disp := (l.foldl (fun c p => plot p.1 p.2 c) ⟨s.disp, false⟩).disp }

/-- The reset state with `I`. -/
def atI (i : Word) : State := { State.reset with i := i }

/-- The reset state with the stack depth `sp` and `w` in every slot. -/
def atDepth (sp : Byte) (w : Word) : State := { State.reset with sp := sp, stack := Vector.replicate 16 w }

/-- The reset state with one event pending. -/
def given (e : HostEvent) : State := { State.reset with inputs := [e] }

/-- The record of a fault at 0x200. -/
def record (c : Cause) (op : Word) : FaultRecord := ⟨c, 0x200, some op⟩

/-- The example `RATE` of R9. -/
theorem standard_rate : Config.standard.rateQ = 1000 := by
  change ((1000 : Nat) : Rat) = 1000
  norm_num

/-! ### What may enter the machine -/

theorem test_negative_frame_ill_formed : HostEvent.wellFormed (.frame (-1)) = false := by decide
theorem test_key_down_16_ill_formed : HostEvent.wellFormed (.keyDown 16) = false := by decide
theorem test_key_up_16_ill_formed : HostEvent.wellFormed (.keyUp 16) = false := by decide
theorem test_events_well_formed :
    HostEvent.wellFormed .reset = true ∧ HostEvent.wellFormed (.loadImage [1]) = true ∧
    HostEvent.wellFormed (.frame 0) = true ∧ HostEvent.wellFormed (.keyDown 15) = true ∧
    HostEvent.wellFormed (.keyUp 15) = true ∧ HostEvent.wellFormed .readDisplay = true ∧
    HostEvent.wellFormed .readStatus = true := by decide
/-- R93: every field value is legal. -/
theorem test_instr_well_formed : Instr.wellFormed (.drw 15 15 15) = true := by decide

/-! ### Decoding: a word of every instruction, from the patterns of R96 -/

theorem test_decode_flow :
    decodeTableWord 16 0x00E0 = some .cls ∧ decodeTableWord 16 0x00EE = some .ret ∧
    decodeTableWord 16 0x1234 = some (.jp 0x234) ∧ decodeTableWord 16 0x2FFF = some (.call 0xFFF) := by decide
theorem test_decode_skips :
    decodeTableWord 16 0x3A7F = some (.seVxNn 0xA 0x7F) ∧ decodeTableWord 16 0x40FE = some (.sneVxNn 0x0 0xFE) ∧
    decodeTableWord 16 0x5120 = some (.seVxVy 1 2) ∧ decodeTableWord 16 0x9FE0 = some (.sneVxVy 0xF 0xE) := by decide
theorem test_decode_load :
    decodeTableWord 16 0x6A55 = some (.ldVxNn 0xA 0x55) ∧ decodeTableWord 16 0x7310 = some (.addVxNn 3 0x10) := by decide
theorem test_decode_alu :
    decodeTableWord 16 0x8AB0 = some (.ldVxVy 0xA 0xB) ∧ decodeTableWord 16 0x8AB1 = some (.orVxVy 0xA 0xB) ∧
    decodeTableWord 16 0x8AB2 = some (.andVxVy 0xA 0xB) ∧ decodeTableWord 16 0x8AB3 = some (.xorVxVy 0xA 0xB) ∧
    decodeTableWord 16 0x8AB4 = some (.addVxVy 0xA 0xB) ∧ decodeTableWord 16 0x8AB5 = some (.subVxVy 0xA 0xB) ∧
    decodeTableWord 16 0x8AB6 = some (.shrVxVy 0xA 0xB) ∧ decodeTableWord 16 0x8AB7 = some (.subnVxVy 0xA 0xB) ∧
    decodeTableWord 16 0x8ABE = some (.shlVxVy 0xA 0xB) := by decide
theorem test_decode_index_random_draw :
    decodeTableWord 16 0xA123 = some (.ldI 0x123) ∧ decodeTableWord 16 0xC381 = some (.rnd 3 0x81) ∧
    decodeTableWord 16 0xD12F = some (.drw 1 2 0xF) := by decide
theorem test_decode_keys :
    decodeTableWord 16 0xE29E = some (.skp 2) ∧ decodeTableWord 16 0xEFA1 = some (.sknp 0xF) := by decide
theorem test_decode_family_f :
    decodeTableWord 16 0xF307 = some (.ldVxDt 3) ∧ decodeTableWord 16 0xF10A = some (.ldVxK 1) ∧
    decodeTableWord 16 0xF315 = some (.ldDtVx 3) ∧ decodeTableWord 16 0xF418 = some (.ldStVx 4) ∧
    decodeTableWord 16 0xF21E = some (.addIVx 2) ∧ decodeTableWord 16 0xF429 = some (.ldFVx 4) ∧
    decodeTableWord 16 0xFB33 = some (.ldBVx 0xB) ∧ decodeTableWord 16 0xF955 = some (.ldMemVx 9) ∧
    decodeTableWord 16 0xF965 = some (.ldVxMem 9) := by decide
/-- T0: words one bit away from a row. -/
theorem test_decode_unrecognized :
    ∀ w ∈ [0x0000, 0x00E1, 0x00FE, 0x0FFF, 0x5121, 0x912F, 0x8128, 0x812F, 0xB300, 0xE19F, 0xE0A2, 0xF108, 0xF175, 0xF1FF],
      decodeTableWord 16 w = none := by decide
theorem test_decode_rejects_by_name :
    decodeBytes [0xB3, 0x00] = .unrecognized 0xB300 ∧ decodeBytes [0x12] = .truncated ∧ decodeBytes [] = .truncated := by
  decide
/-- T0: the fields of `0xD12F`. -/
theorem test_fields :
    fieldF 0xD12F = 0xD ∧ fieldX 0xD12F = 1 ∧ fieldY 0xD12F = 2 ∧ fieldN 0xD12F = 0xF ∧ fieldNN 0xD12F = 0x2F ∧
    fieldNNN 0xD12F = 0x12F := by decide

/-! ### Families 0, 1 and 2 (T1) -/

theorem test_cls :
    (run (cells State.reset [(0, 0), (63, 0)]) 0x00E0).map
      (fun t => (displayCell t.disp 0 0, displayCell t.disp 63 0, t.pc)) = some (false, false, 0x202) := by decide
theorem test_ret : (run (atDepth 1 0x206) 0x00EE).map (fun t => (t.pc, t.sp)) = some (0x206, 0) := by decide
theorem test_ret_empty :
    (run State.reset 0x00EE).map (fun t => (t.mode, t.pc, t.sp)) =
      some (.halted (record .stackUnderflow 0x00EE), 0x202, 0) := by decide
theorem test_jp_odd : (run State.reset 0x1201).map (fun t => t.pc) = some 0x201 := by decide
theorem test_call_last_slot :
    (run (atDepth 15 0) 0x2300).map (fun t => (t.pc, t.sp, t.stack[15])) = some (0x300, 16, 0x202) := by decide
theorem test_call_full :
    (run (atDepth 16 7) 0x2300).map (fun t => (t.mode, t.pc, t.sp, t.stack[15])) =
      some (.halted (record .stackOverflow 0x2300), 0x202, 16, 7) := by decide

/-! ### Skips on registers (T2) -/

theorem test_se_nn : (run (regs State.reset [(0xA, 0x7F)]) 0x3A7F).map (fun t => t.pc) = some 0x204 := by decide
theorem test_sne_nn : (run State.reset 0x40FF).map (fun t => t.pc) = some 0x204 := by decide
theorem test_se_vy : (run (regs State.reset [(1, 1)]) 0x5010).map (fun t => t.pc) = some 0x202 := by decide
theorem test_sne_vy_same : (run (regs State.reset [(0, 9)]) 0x9000).map (fun t => t.pc) = some 0x202 := by decide
/-- R25: the largest value `PC` can take. -/
theorem test_skip_at_top :
    (run { regs State.reset [(0, 0x11)] with pc := 0xFFE } 0x3011).map (fun t => t.pc) = some 0x1002 := by decide

/-! ### Load, add and the ALU (T3, T4) -/

theorem test_ld_nn : (run State.reset 0x6A55).map (fun t => t.reg 0xA) = some 0x55 := by decide
theorem test_add_nn_no_flag :
    (run (regs State.reset [(3, 0xFF), (15, 7)]) 0x7301).map (fun t => (t.reg 3, t.reg 15)) = some (0, 7) := by decide
theorem test_ld_vy :
    (run (regs State.reset [(1, 0x11), (2, 0x22)]) 0x8120).map (fun t => (t.reg 1, t.reg 2)) = some (0x22, 0x22) := by
  decide
theorem test_or :
    (run (regs State.reset [(1, 0xF0), (2, 0x0F), (15, 7)]) 0x8121).map (fun t => (t.reg 1, t.reg 15)) = some (0xFF, 7) := by
  decide
theorem test_and :
    (run (regs State.reset [(1, 0xF0), (2, 0x3C), (15, 7)]) 0x8122).map (fun t => (t.reg 1, t.reg 15)) = some (0x30, 7) := by
  decide
theorem test_xor :
    (run (regs State.reset [(1, 0xF0), (2, 0x3C), (15, 7)]) 0x8123).map (fun t => (t.reg 1, t.reg 15)) = some (0xCC, 7) := by
  decide
theorem test_add_carry :
    (run (regs State.reset [(1, 0x80), (2, 0x80)]) 0x8124).map (fun t => (t.reg 1, t.reg 2, t.reg 15)) =
      some (0, 0x80, 1) := by decide
/-- D8: the result overwrites the carry. -/
theorem test_add_into_vf :
    (run (regs State.reset [(15, 0x90), (1, 0x90)]) 0x8F14).map (fun t => t.reg 15) = some 0x20 := by decide
theorem test_sub_borrow :
    (run (regs State.reset [(1, 5), (2, 0x0A)]) 0x8125).map (fun t => (t.reg 1, t.reg 15)) = some (0xFB, 1) := by
  decide
theorem test_sub_equal :
    (run (regs State.reset [(1, 0x33), (2, 0x33), (15, 1)]) 0x8125).map (fun t => (t.reg 1, t.reg 15)) = some (0, 0) := by
  decide
theorem test_shr_shifts_vy :
    (run (regs State.reset [(1, 0xAA), (2, 5)]) 0x8126).map (fun t => (t.reg 1, t.reg 2, t.reg 15)) = some (2, 5, 1) := by
  decide
theorem test_subn_borrow :
    (run (regs State.reset [(1, 0x0A), (2, 5)]) 0x8127).map (fun t => (t.reg 1, t.reg 15)) = some (0xFB, 1) := by
  decide
theorem test_subn_reads_vf :
    (run (regs State.reset [(15, 5), (1, 0x0A)]) 0x8F17).map (fun t => t.reg 15) = some 5 := by decide
theorem test_shl_shifts_vy :
    (run (regs State.reset [(2, 0x81)]) 0x812E).map (fun t => (t.reg 1, t.reg 2, t.reg 15)) = some (2, 0x81, 1) := by
  decide

/-! ### Index and random (T5) -/

theorem test_ld_i : (run State.reset 0xAFFF).map (fun t => (t.i, t.pc)) = some (0x0FFF, 0x202) := by decide
/-- For every draw: with `NN = 0` the result is 0. -/
theorem test_rnd_zero_mask : (run (regs State.reset [(3, 9)]) 0xC300).map (fun t => (t.reg 3, t.draws)) = some (0, 1) := by
  have fetched : run (regs State.reset [(3, 9)]) 0xC300 =
      next? (execRnd 3 0 { (regs State.reset [(3, 9)]).placeWord 0xC300 with loadable := false }) := rfl
  rw [fetched]
  simp [execRnd, next?, State.reg]
  rfl

/-! ### Draw-sprite (T6) -/

/-- Clipped at the right edge, with no wrap onto a set cell. -/
theorem test_drw_clips :
    (run (cells (regs { State.reset with i := 0x300, mem := [(0x300, 0xC0)] } [(0, 0x3F)]) [(0, 0)]) 0xD011).map
      (fun t => (displayCell t.disp 63 0, displayCell t.disp 0 0, displayCell t.disp 62 0, t.reg 15)) =
      some (true, true, false, 0) := by decide
/-- Collides, and toggles the cell off. -/
theorem test_drw_collides :
    (run (cells { State.reset with i := 0x300, mem := [(0x300, 0xF0)] } [(3, 0), (7, 0)]) 0xD011).map
      (fun t => (displayCell t.disp 0 0, displayCell t.disp 3 0, displayCell t.disp 7 0, t.reg 15)) =
      some (true, false, true, 1) := by decide

/-! ### Skips on keys (T7) -/

theorem test_skp_down :
    (run { regs State.reset [(2, 5)] with key := (Vector.replicate 16 false).set 5 true } 0xE29E).map (fun t => t.pc) =
      some 0x204 := by decide
theorem test_skp_no_key :
    (run (regs State.reset [(2, 16)]) 0xE29E).map (fun t => (t.mode, t.pc)) =
      some (.halted (record .keyIndexOutOfRange 0xE29E), 0x202) := by decide
theorem test_sknp_up : (run (regs State.reset [(2, 5)]) 0xE2A1).map (fun t => t.pc) = some 0x204 := by decide
theorem test_sknp_no_key :
    (run (regs State.reset [(2, 0xFF)]) 0xE2A1).map (fun t => (t.mode, t.pc)) =
      some (.halted (record .keyIndexOutOfRange 0xE2A1), 0x202) := by decide

/-! ### Family F (T8 to T11) -/

theorem test_ld_vx_dt : (run { State.reset with dt := 0x2A } 0xF307).map (fun t => (t.reg 3, t.dt)) = some (0x2A, 0x2A) := by
  decide
theorem test_ld_vx_k :
    (run (regs State.reset [(1, 9)]) 0xF10A).map (fun t => (t.mode, t.pc, t.reg 1)) = some (.awaitingKey 1, 0x202, 9) := by
  decide
theorem test_ld_dt_vx : (run (regs State.reset [(3, 0x3C)]) 0xF315).map (fun t => (t.dt, t.st)) = some (0x3C, 0) := by
  decide
theorem test_ld_st_vx : (run (regs State.reset [(3, 5)]) 0xF318).map (fun t => (t.dt, t.st)) = some (0, 5) := by
  decide
/-- No sign extension of `VX`. -/
theorem test_add_i : (run (regs (atI 0xFF80) [(2, 0xFF)]) 0xF21E).map (fun t => (t.i, t.reg 15)) = some (0x007F, 0) := by
  decide
theorem test_ld_f : (run (regs State.reset [(4, 0xF)]) 0xF429).map (fun t => t.i) = some 0x4B := by decide
theorem test_ld_f_above_15 : (run (regs State.reset [(4, 0x10)]) 0xF429).map (fun t => (t.draws, t.pc)) = some (1, 0x202) := by
  decide
/-- S7. -/
theorem test_ld_b :
    (run (regs (atI 0x300) [(0, 157)]) 0xF033).map (fun t => (t.memRead 0x300, t.memRead 0x301, t.memRead 0x302, t.i)) =
      some (1, 5, 7, 0x300) := by decide
theorem test_ld_b_past_end :
    (run (regs (atI 0xFFE) [(0, 123)]) 0xF033).map (fun t => (t.mode, t.memRead 0xFFE)) =
      some (.halted (record .memoryOutOfRange 0xF033), 0) := by decide
theorem test_ld_mem :
    (run (regs (atI 0x300) [(0, 0x11), (1, 0x22), (2, 0x33), (3, 0x44)]) 0xF255).map
      (fun t => (t.memRead 0x300, t.memRead 0x301, t.memRead 0x302, t.memRead 0x303, t.i)) =
      some (0x11, 0x22, 0x33, 0, 0x303) := by decide
theorem test_ld_mem_last_byte :
    (run (regs (atI 0xFFF) [(0, 0x77)]) 0xF055).map (fun t => (t.memRead 0xFFF, t.i)) = some (0x77, 0x1000) := by
  decide
theorem test_ld_vx_mem :
    (run (regs { State.reset with i := 0x300, mem := [(0x300, 1), (0x301, 5), (0x302, 7)] } [(3, 0x99)]) 0xF265).map
      (fun t => (t.reg 0, t.reg 1, t.reg 2, t.reg 3, t.i)) = some (1, 5, 7, 0x99, 0x303) := by decide
/-- The default font, read back. -/
theorem test_ld_vx_mem_font :
    (run State.reset 0xFF65).map (fun t => t.v.toList) =
      some [0xF0, 0x90, 0x90, 0x90, 0xF0, 0x20, 0x60, 0x20, 0x20, 0x70, 0xF0, 0x10, 0xF0, 0x80, 0xF0, 0xF0] := by
  decide

/-! ### Host events (T8, T12, S8) -/

/-- The oldest pending event is taken before any cycle: a key press ends the wait, and the `PC` stays. -/
theorem test_key_down_ends_wait :
    (next? (step { given (.keyDown 7) with mode := .awaitingKey 1, pc := 0x202 })).map
      (fun t => (t.reg 1, t.key[7], t.mode, t.pc)) = some (7, true, .running, 0x202) := by decide
/-- T12: a fault in the frame's first cycle leaves `CACC` as it was raised and skips the timers. -/
theorem test_frame_fault :
    ∃ t, step { given (.frame (1 / 60)) with dt := 10 } = .next t ∧
      t.mode = .halted (record .unrecognizedOpcode 0) ∧ t.pc = 0x202 ∧ t.dt = 10 ∧ t.cacc = 0 + 1 / 60 := by
  have due : dueCycles Config.standard.rateQ (0 + 1 / 60) = 16 :=
    floor_toNat_eq (by norm_num [standard_rate]) (by norm_num [standard_rate])
  have stepped : step { given (.frame (1 / 60)) with dt := 10 } = .next
      { State.reset with
        dt := 10, pc := 0x202, cacc := 0 + 1 / 60, loadable := false,
        mode := .halted (record .unrecognizedOpcode 0) } := by
    change frame (1 / 60) { State.reset with dt := 10 } = _
    rw [frame, if_neg (by norm_num), if_neg (by decide), runFrame]
    simp only [State.closeLoad, State.reset, State.resetWith, due]
    rfl
  exact ⟨_, stepped, rfl, rfl, rfl, rfl⟩
/-- S8: where the bytes of an image stand. -/
theorem test_load_image :
    (next? (step (given (.loadImage [0x60, 0x0A, 0x61, 0x05])))).map
      (fun t => (t.memRead 0x200, t.memRead 0x201, t.memRead 0x203, t.memRead 0x204, t.pc)) =
      some (0x60, 0x0A, 0x05, 0, 0x200) := by decide

/-! ### Witnesses: for each statement with hypotheses, a state and operands that meet them -/

/-- A machine inside a subroutine that jumps to itself, in the middle of a run. -/
def busy : State :=
  { atDepth 1 0x206 with
    pc := 0x300, mem := [(0x300, 0x13)], cacc := 1 / 2000, tacc := 1 / 100, dt := 5, loadable := false }

/-- `busy` with a frame pending, in which 2 cycles are due. -/
def busyFrame : State := { busy with inputs := [.frame (1 / 500)] }

/-- A machine that has halted. -/
def stopped (e : HostEvent) : State := { given e with mode := .halted (record .stackUnderflow 0x00EE), pc := 0x202 }

theorem test_hyps_encode_of_decode : decodeWord 0xD12F = some (.drw 1 2 0xF) := by decide
theorem test_hyps_opcode_rows : (.cls ∈ rowInstrs ∧ .ret ∈ rowInstrs ∧ Instr.cls ≠ Instr.ret) := by decide
theorem test_hyps_reset : State.reset = State.resetWith Config.standard := rfl
theorem test_hyps_reset_event : (stopped .reset).inputs = .reset :: [] := rfl
theorem test_hyps_step_keeps_invariant : busyFrame.Inv ∧ ∃ t, step busyFrame = .next t :=
  ⟨⟨by decide, by decide, by decide, by decide, by norm_num [busyFrame, busy, tickInterval],
    by norm_num [busyFrame, busy], fun _ => by
      change (1 / 2000 : Rat) < 1 / Config.standard.rateQ
      norm_num [standard_rate]⟩, by
    have due : dueCycles Config.standard.rateQ (1 / 2000 + 1 / 500) = 2 :=
      floor_toNat_eq (by norm_num [standard_rate]) (by norm_num [standard_rate])
    apply exists_next
    change (next? (frame (1 / 500) busy)).isSome = true
    rw [frame, if_neg (by norm_num), if_neg (by decide), runFrame]
    simp only [State.closeLoad, busy, atDepth, State.reset, State.resetWith, due]
    rfl⟩
theorem test_hyps_step_runs_last_word :
    let s : State := { State.reset with pc := 4094, mem := [(4094, 0x60), (4095, 0x11)] }
    s.inputs = [] ∧ s.mode = .running ∧ s.pc.toNat ≤ 4094 ∧
      decodeBytes [s.memRead s.pc.toNat, s.memRead (s.pc.toNat + 1)] = .instr (.ldVxNn 0 0x11) [] ∧
      (Instr.ldVxNn 0 0x11).wellFormed = true := by decide
theorem test_hyps_unrecognized :
    State.reset.inputs = [] ∧ State.reset.mode = .running ∧ State.reset.pc.toNat ≤ 4094 ∧
      decodeBytes [State.reset.memRead State.reset.pc.toNat, State.reset.memRead (State.reset.pc.toNat + 1)] =
        .unrecognized 0 := by decide
theorem test_hyps_fetch_out_of_range :
    let s : State := { State.reset with pc := 4095 }
    s.inputs = [] ∧ s.mode = .running ∧ 4094 < s.pc.toNat := by decide
theorem test_hyps_draw_out_of_range :
    1 ≤ (1 : Nibble).toNat ∧ 4095 < (atI 0x1000).i.toNat + (1 : Nibble).toNat - 1 := by decide
theorem test_hyps_digits_out_of_range : 4095 < (atI 0xFFE).i.toNat + 2 := by decide
theorem test_hyps_block_out_of_range : 4095 < (atI 0xFFF).i.toNat + (1 : Nibble).toNat := by decide
theorem test_hyps_stack_overflow :
    (atDepth 16 7).sp = 16 ∧ (atDepth 16 7).isHalted = false ∧
      ∃ t r, exec (.call 0x300) (atDepth 16 7) = .next t ∧ t.mode = .halted r ∧ r.cause = .stackOverflow :=
  ⟨rfl, rfl, _, _, rfl, rfl, rfl⟩
theorem test_hyps_stack_underflow :
    State.reset.sp = 0 ∧ State.reset.isHalted = false ∧
      ∃ t r, exec .ret State.reset = .next t ∧ t.mode = .halted r ∧ r.cause = .stackUnderflow :=
  ⟨rfl, rfl, _, _, rfl, rfl, rfl⟩
theorem test_hyps_key_index :
    15 < ((regs State.reset [(2, 16)]).reg 2).toNat ∧ (regs State.reset [(2, 16)]).isHalted = false ∧
      ∃ t r, exec (.skp 2) (regs State.reset [(2, 16)]) = .next t ∧ t.mode = .halted r ∧ r.cause = .keyIndexOutOfRange :=
  ⟨by decide, rfl, _, _, rfl, rfl, rfl⟩
theorem test_hyps_faults_precise :
    (atI 0xFFE).isHalted = false ∧ ∃ t r, exec (.ldBVx 0) (atI 0xFFE) = .next t ∧ t.mode = .halted r :=
  ⟨rfl, _, _, rfl, rfl⟩
theorem test_hyps_idle :
    let s : State := { State.reset with mode := .awaitingKey 3 }
    s.inputs = [] ∧ s.mode = .awaitingKey 3 := by decide
theorem test_hyps_halted :
    let s : State := { State.reset with mode := .halted (record .stackUnderflow 0x00EE) }
    s.inputs = [] ∧ s.mode = .halted (record .stackUnderflow 0x00EE) := by decide
theorem test_hyps_halted_absorbs_frame :
    (stopped (.frame 1)).mode = .halted (record .stackUnderflow 0x00EE) ∧ (stopped (.frame 1)).inputs = .frame 1 :: [] ∧
      HostEvent.wellFormed (.frame 1) = true ∧ HostEvent.frame 1 ≠ .reset ∧
      ((∃ bytes, HostEvent.frame 1 = .loadImage bytes) → (stopped (.frame 1)).loadable = true) :=
  ⟨rfl, rfl, by decide, by decide, fun _ => rfl⟩
theorem test_hyps_halted_absorbs_load :
    (stopped (.loadImage [1])).mode = .halted (record .stackUnderflow 0x00EE) ∧
      (stopped (.loadImage [1])).inputs = .loadImage [1] :: [] ∧ HostEvent.wellFormed (.loadImage [1]) = true ∧
      HostEvent.loadImage [1] ≠ .reset ∧ (stopped (.loadImage [1])).loadable = true :=
  ⟨rfl, rfl, by decide, by decide, rfl⟩
theorem test_hyps_refused_frame : (given (.frame (-1))).inputs = .frame (-1) :: [] ∧ (-1 : Rat) < 0 := by decide
theorem test_hyps_refused_keys :
    (given (.keyDown 16)).inputs = .keyDown 16 :: [] ∧ (given (.keyUp 16)).inputs = .keyUp 16 :: [] ∧ 15 < 16 := by decide
theorem test_hyps_refused_load :
    let s : State := { given (.loadImage [1]) with loadable := false }
    s.inputs = .loadImage [1] :: [] ∧ s.loadable = false := by decide
theorem test_hyps_load_closed_by_cycle :
    State.reset.mode = .running ∧ State.reset.inputs = [] ∧ ∃ t, step State.reset = .next t :=
  ⟨rfl, rfl, exists_next (by decide)⟩
theorem test_hyps_load_closed_by_event :
    let s : State := { given (.keyUp 15) with mode := .awaitingKey 3 }
    s.isHalted = false ∧ s.inputs = .keyUp 15 :: [] ∧ HostEvent.keyUp 15 ≠ .reset ∧ HostEvent.keyUp 15 ≠ .readDisplay ∧
      HostEvent.keyUp 15 ≠ .readStatus ∧ ∃ t, step s = .next t :=
  ⟨rfl, rfl, by decide, by decide, by decide, exists_next (by decide)⟩
theorem test_hyps_return_pops : (atDepth 1 0).sp.toNat = (0 : Fin 16).val + 1 ∧ (atDepth 16 0).sp.toNat = (15 : Fin 16).val + 1 := by
  decide
theorem test_hyps_call_pushes : (atDepth 0 0).sp.toNat = (0 : Fin 16).val ∧ (atDepth 15 0).sp.toNat = (15 : Fin 16).val := by
  decide
theorem test_hyps_call_then_return :
    (atDepth 15 0).sp.toNat < 16 ∧ ∃ t u, exec (.call 0x300) (atDepth 15 0) = .next t ∧ u.stack = t.stack ∧ u.sp = t.sp ∧
      u ≠ t :=
  ⟨by decide, _, { (atDepth 15 0).advance.push.jump 0x300 with pc := 0x400 }, rfl, rfl, rfl, by
    intro h
    exact absurd (congrArg State.pc h) (by decide)⟩
theorem test_hyps_flag_not_destination : (1 : Nibble) ≠ regF ∧ (14 : Nibble) ≠ regF := by decide
theorem test_hyps_draw_sprite :
    ((0 : Nibble).toNat = 0 ∨ (atI 0xFFFF).i.toNat + (0 : Nibble).toNat - 1 ≤ 4095) ∧
      ((15 : Nibble).toNat = 0 ∨ (atI 0xFF1).i.toNat + (15 : Nibble).toNat - 1 ≤ 4095) := by decide
theorem test_hyps_draw_twice :
    (0 : Nibble) ≠ regF ∧ (1 : Nibble) ≠ regF ∧
      ((1 : Nibble).toNat = 0 ∨ (atI 0xFFF).i.toNat + (1 : Nibble).toNat - 1 ≤ 4095) := by decide
theorem test_hyps_skip_on_key :
    ((regs State.reset [(2, 15)]).reg 2).toNat = (15 : Fin 16).val ∧ (State.reset.reg 2).toNat = (0 : Fin 16).val := by decide
theorem test_hyps_font_address :
    ((regs State.reset [(4, 15)]).reg 4).toNat ≤ 15 ∧ 15 < ((regs State.reset [(4, 16)]).reg 4).toNat := by decide
theorem test_hyps_decimal_digits : (atI 0xFFD).i.toNat + 2 ≤ 4095 := by decide
theorem test_hyps_block : (atI 0xFF0).i.toNat + (15 : Nibble).toNat ≤ 4095 := by decide
theorem test_hyps_store_then_load :
    (atI 0xFF0).i.toNat = (0xFF0 : Addr).toNat ∧ (0xFF0 : Addr).toNat + (15 : Nibble).toNat ≤ 4095 := by decide
theorem test_hyps_who_writes_what :
    ∃ t, exec (.call 0x300) State.reset = .next t ∧ (t.sp ≠ State.reset.sp ∨ t.stack ≠ State.reset.stack) :=
  ⟨_, rfl, .inl (by decide)⟩
theorem test_hyps_who_writes_display_and_memory :
    (∃ t, exec .cls (cells State.reset [(0, 0)]) = .next t ∧ t.disp ≠ (cells State.reset [(0, 0)]).disp) ∧
      (∃ t, exec (.ldMemVx 0) (regs (atI 0x300) [(0, 7)]) = .next t ∧
        ∃ a, t.memRead a ≠ (regs (atI 0x300) [(0, 7)]).memRead a) :=
  ⟨⟨_, rfl, fun h => absurd (congrArg (fun d => displayCell d 0 0) h) (by decide)⟩, _, rfl, 0x300, by decide⟩
theorem test_hyps_who_writes_timers_and_index :
    (∃ t, exec (.ldDtVx 0) (regs State.reset [(0, 7)]) = .next t ∧ t.dt ≠ (regs State.reset [(0, 7)]).dt) ∧
      (∃ t, exec (.ldStVx 0) (regs State.reset [(0, 7)]) = .next t ∧ t.st ≠ (regs State.reset [(0, 7)]).st) ∧
      (∃ t, exec (.ldI 7) State.reset = .next t ∧ t.i ≠ State.reset.i) ∧
      (∃ t, exec (.rnd 0 7) State.reset = .next t ∧ t.draws ≠ State.reset.draws) :=
  ⟨⟨_, rfl, by decide⟩, ⟨_, rfl, by decide⟩, ⟨_, rfl, by decide⟩, _, rfl, by decide⟩
theorem test_hyps_flag_register_writers :
    ∃ t, exec (.ldVxMem 15) State.reset = .next t ∧ t.reg regF ≠ State.reset.reg regF := ⟨_, rfl, by decide⟩
theorem test_hyps_key_down :
    (given (.keyDown (15 : Fin 16).val)).inputs = .keyDown (15 : Fin 16).val :: [] ∧
      (given (.keyDown (15 : Fin 16).val)).mode = .running := by decide
theorem test_hyps_key_down_waiting :
    let s : State := { given (.keyDown (0 : Fin 16).val) with mode := .awaitingKey 15 }
    s.inputs = .keyDown (0 : Fin 16).val :: [] ∧ s.mode = .awaitingKey 15 := by decide
theorem test_hyps_key_up :
    let s : State := { given (.keyUp (15 : Fin 16).val) with mode := .awaitingKey 1 }
    s.inputs = .keyUp (15 : Fin 16).val :: [] ∧ s.isHalted = false := by decide
theorem test_hyps_timer_update :
    0 ≤ busy.tacc ∧ 0 ≤ (1 / 60 : Rat) ∧ 1 = ((busy.tacc + 1 / 60) * 60).floor.toNat :=
  ⟨by norm_num [busy], by norm_num, (floor_toNat_eq (by norm_num [busy]) (by norm_num [busy])).symm⟩
theorem test_hyps_timer_granularity : State.reset.tacc = 0 ∧ ∀ dt ∈ ([1 / 60, 0] : List Rat), 0 ≤ dt :=
  ⟨rfl, by norm_num⟩
/-- A frame of 2 cycles that do not fault. -/
theorem test_hyps_frame_completes :
    busyFrame.inputs = .frame (1 / 500) :: [] ∧ 0 ≤ (1 / 500 : Rat) ∧ busyFrame.isHalted = false ∧ 0 ≤ busyFrame.cacc ∧
      2 = ((busyFrame.cacc + 1 / 500) * busyFrame.cfg.rateQ).floor.toNat ∧
      ∃ t, runCycles 2 { busyFrame with cacc := busyFrame.cacc + 1 / 500, inputs := [], loadable := false } = .next t ∧
        t.isHalted = false := by
  refine ⟨rfl, by norm_num, rfl, by norm_num [busyFrame, busy], ?_, _, rfl, by decide⟩
  change 2 = (((1 / 2000 : Rat) + 1 / 500) * Config.standard.rateQ).floor.toNat
  exact (floor_toNat_eq (by norm_num [standard_rate]) (by norm_num [standard_rate])).symm
/-- A frame of 10 cycles, of which the first faults: no image was loaded. -/
theorem test_hyps_frame_faults :
    (given (.frame (1 / 100))).inputs = .frame (1 / 100) :: [] ∧ 0 ≤ (1 / 100 : Rat) ∧ State.reset.isHalted = false ∧
      0 ≤ State.reset.cacc ∧ 10 = ((State.reset.cacc + 1 / 100) * State.reset.cfg.rateQ).floor.toNat ∧
      ∃ t, runCycles 10 { State.reset with cacc := State.reset.cacc + 1 / 100, inputs := [], loadable := false } = .next t ∧
        t.isHalted = true := by
  refine ⟨rfl, by norm_num, rfl, by decide, ?_, _, rfl, by decide⟩
  change 10 = (((0 : Rat) + 1 / 100) * Config.standard.rateQ).floor.toNat
  exact (floor_toNat_eq (by norm_num [standard_rate]) (by norm_num [standard_rate])).symm
/-- `busy` from `CACC = 0`, with two frames and a key event pending: of 2 cycles, and of none. -/
def busyFrames : State := { busy with cacc := 0, inputs := [.frame (1 / 500), .frame (1 / 2000), .keyUp 0] }

/-- Its two frames run, and neither faults. -/
theorem test_hyps_scheduler :
    busyFrames.cacc = 0 ∧ (∀ dt ∈ ([1 / 500, 1 / 2000] : List Rat), 0 ≤ dt) ∧
      busyFrames.inputs = ([1 / 500, 1 / 2000] : List Rat).map HostEvent.frame ++ [.keyUp 0] ∧
      ∃ t, runSteps 2 busyFrames = .next t ∧ t.isHalted = false := by
  have first : dueCycles Config.standard.rateQ (0 + 1 / 500) = 2 :=
    floor_toNat_eq (by norm_num [standard_rate]) (by norm_num [standard_rate])
  have second : dueCycles Config.standard.rateQ (0 + 1 / 500 - (2 : Nat) / Config.standard.rateQ + 1 / 2000) = 0 :=
    floor_toNat_eq (by norm_num [standard_rate]) (by norm_num [standard_rate])
  have step1 : step busyFrames = runFrame (1 / 500) { busyFrames with inputs := [.frame (1 / 2000), .keyUp 0] } := by
    change frame (1 / 500) { busyFrames with inputs := [.frame (1 / 2000), .keyUp 0] } = _
    rw [frame, if_neg (by norm_num), if_neg (by decide)]
    rfl
  have ran1 : runFrame (1 / 500) { busyFrames with inputs := [.frame (1 / 2000), .keyUp 0] } =
      .next ({ busyFrames with
        inputs := [.frame (1 / 2000), .keyUp 0],
        cacc := 0 + 1 / 500 - (2 : Nat) / Config.standard.rateQ }.timerUpdate (1 / 500)) := by
    rw [runFrame]
    simp only [busyFrames, busy, atDepth, State.reset, State.resetWith, first]
    rfl
  have step2 : ∀ u : State, u.isHalted = false → u.cacc = 0 + 1 / 500 - (2 : Nat) / Config.standard.rateQ →
      u.cfg = Config.standard → u.inputs = [.frame (1 / 2000), .keyUp 0] → ∃ t, step u = .next t ∧ t.isHalted = false := by
    intro u hm hc hcfg hi
    refine ⟨{ u with
      cacc := u.cacc + 1 / 2000 - (0 : Nat) / u.cfg.rateQ, inputs := [.keyUp 0], loadable := false }.timerUpdate (1 / 2000),
      ?_, ?_⟩
    · simp only [step, hi, takeEvent, frame]
      rw [if_neg (by norm_num), if_neg (by simpa [State.isHalted] using hm)]
      simp only [runFrame, State.closeLoad, hc, hcfg, second, runCycles, State.endFrame]
      rw [if_neg (by simpa [State.isHalted] using hm)]
    · rw [State.timerUpdate_writes]
      exact hm
  obtain ⟨t, ht, running⟩ := step2 ({ busyFrames with
      inputs := [.frame (1 / 2000), .keyUp 0],
      cacc := 0 + 1 / 500 - (2 : Nat) / Config.standard.rateQ }.timerUpdate (1 / 500))
    (by rw [State.timerUpdate_writes]; rfl) (by rw [State.timerUpdate_writes]) (by rw [State.timerUpdate_writes]; rfl)
    (by rw [State.timerUpdate_writes])
  refine ⟨rfl, by norm_num, rfl, t, ?_, running⟩
  simp only [runSteps, step1, ran1, ht]
theorem test_hyps_load_image :
    (given (.loadImage [0x12, 0x00])).inputs = .loadImage [0x12, 0x00] :: [] ∧
      (given (.loadImage [0x12, 0x00])).loadable = true ∧ (given (.loadImage [0x12, 0x00])).isHalted = false := by decide
theorem test_hyps_observations :
    (given .readDisplay).inputs = .readDisplay :: [] ∧ (given .readStatus).inputs = .readStatus :: [] := by decide

theorem test_hyps_batch_goes_on : ∃ t, cycle busy = .next t ∧ t.isHalted = false := ⟨_, rfl, rfl⟩
theorem test_hyps_batch_stops : ∃ t, cycle State.reset = .next t ∧ t.isHalted = true := ⟨_, rfl, rfl⟩
/-- The model's own fault, in a state no run reaches. -/
theorem test_hyps_batch_model_fault :
    ∃ f, cycle { State.reset with sp := 17, mem := [(0x201, 0xEE)] } = .fault f := ⟨_, rfl⟩
theorem test_hyps_cycle_decoded :
    let s : State := { State.reset with pc := 4094, mem := [(4094, 0x60), (4095, 0x11)], inputs := [.keyUp 0] }
    s.mode = .running ∧ s.pc.toNat ≤ 4094 ∧
      decodeBytes [s.memRead s.pc.toNat, s.memRead (s.pc.toNat + 1)] = .instr (.ldVxNn 0 0x11) [] := by decide
theorem test_hyps_awaiting_frame :
    let s : State := { given (.frame 0) with mode := .awaitingKey 15 }
    s.mode = .awaitingKey 15 ∧ s.inputs = .frame 0 :: [] ∧ (0 : Rat) ≤ 0 := by decide
theorem test_hyps_frames_step : busyFrame.Inv ∧ busyFrame.inputs = .frame (1 / 500) :: [] ∧ (0 : Rat) ≤ 1 / 500 :=
  ⟨test_hyps_step_keeps_invariant.1, rfl, by norm_num⟩

end Sys2Proof.Tests
end

/-! PROOFS. Encoder, decoder and opcode table agree (spec 30_encoding.md R94, R96): decoding undoes encoding, a decoded word is
laid out again by the encoder, and a word under a row's mask is the row's match iff it is the word of an instruction of the row. -/

namespace Sys2Proof

/-! ### Decoding undoes encoding -/

theorem decodeWord_formatXYN_8 (x y n : Nibble) : decodeWord (formatXYN 0x8 x y n) = decodeFamily8 x y n := by
  simp [decodeWord]

theorem decodeWord_formatXB_E (x : Nibble) (nn : Byte) : decodeWord (formatXB 0xE x nn) = decodeFamilyE x nn := by
  simp [decodeWord]

theorem decodeWord_formatXB_F (x : Nibble) (nn : Byte) : decodeWord (formatXB 0xF x nn) = decodeFamilyF x nn := by
  simp [decodeWord]

/-- R94: the decoder reads every instruction back from its word, by format and family. -/
theorem decodeWord_encode (i : Instr) : decodeWord (encode i) = some i := by
  cases i with
  | cls | ret => decide
  | jp | call | ldI => simp [encode, decodeWord]
  | seVxNn | sneVxNn | ldVxNn | addVxNn | rnd => simp [encode, decodeWord]
  | seVxVy | sneVxVy | drw => simp [encode, decodeWord]
  | ldVxVy | orVxVy | andVxVy | xorVxVy | addVxVy | subVxVy | shrVxVy | subnVxVy | shlVxVy =>
    exact decodeWord_formatXYN_8 ..
  | skp | sknp => exact decodeWord_formatXB_E ..
  | ldVxDt | ldVxK | ldDtVx | ldStVx | addIVx | ldFVx | ldBVx | ldMemVx | ldVxMem => exact decodeWord_formatXB_F ..

/-! ### A decoded word is the word of its instruction -/

theorem nibble_eq_of_toNat {n : Nibble} {k : Nat} (h : n.toNat = k) : n = BitVec.ofNat 4 k := by
  rw [← h, BitVec.ofNat_toNat, BitVec.setWidth_eq]

theorem formatA_of_family {op : Word} {f : Nibble} (h : fieldF op = f) : formatA f (fieldNNN op) = op :=
  h ▸ formatA_fields op

theorem formatXB_of_family {op : Word} {f : Nibble} (h : fieldF op = f) : formatXB f (fieldX op) (fieldNN op) = op :=
  h ▸ formatXB_fields op

theorem formatXYN_of_family {op : Word} {f : Nibble} (h : fieldF op = f) :
    formatXYN f (fieldX op) (fieldY op) (fieldN op) = op :=
  h ▸ formatXYN_fields op

theorem encode_of_decodeFamily0 {op : Word} {i : Instr} (h : decodeFamily0 op = some i) : encode i = op := by
  unfold decodeFamily0 at h
  split_ifs at h <;> cases h <;> (rename_i hop; rw [hop]; rfl)

theorem encode_of_decodeFamily8 {x y n : Nibble} {i : Instr} (h : decodeFamily8 x y n = some i) :
    encode i = formatXYN 0x8 x y n := by
  unfold decodeFamily8 at h
  split at h <;> cases h <;> (rename_i hn; rw [nibble_eq_of_toNat hn]; rfl)

theorem encode_of_decodeFamilyE {x : Nibble} {nn : Byte} {i : Instr} (h : decodeFamilyE x nn = some i) :
    encode i = formatXB 0xE x nn := by
  unfold decodeFamilyE at h
  split_ifs at h <;> cases h <;> (rename_i hnn; rw [hnn]; rfl)

theorem encode_of_decodeFamilyF {x : Nibble} {nn : Byte} {i : Instr} (h : decodeFamilyF x nn = some i) :
    encode i = formatXB 0xF x nn := by
  unfold decodeFamilyF at h
  split_ifs at h <;> cases h <;> (rename_i hnn; rw [hnn]; rfl)

/-- R94: the encoder lays a decoded word out again. The cases are the families, in order: `h_1` is 0x0, `h_16` is 0xF. -/
theorem encode_of_decodeWord {op : Word} {i : Instr} (h : decodeWord op = some i) : encode i = op := by
  unfold decodeWord at h
  split at h
  case h_1 => exact encode_of_decodeFamily0 h
  case h_2 | h_3 | h_11 =>
    rename_i hf
    cases h
    exact formatA_of_family (nibble_eq_of_toNat hf)
  case h_4 | h_5 | h_7 | h_8 | h_13 =>
    rename_i hf
    cases h
    exact formatXB_of_family (nibble_eq_of_toNat hf)
  case h_6 | h_10 =>
    rename_i hf
    split_ifs at h with hn
    cases h
    simpa only [encode, hn] using formatXYN_of_family (nibble_eq_of_toNat hf)
  case h_9 =>
    rename_i hf
    rw [encode_of_decodeFamily8 h]
    exact formatXYN_of_family (nibble_eq_of_toNat hf)
  case h_12 => cases h
  case h_14 =>
    rename_i hf
    cases h
    exact formatXYN_of_family (nibble_eq_of_toNat hf)
  case h_15 =>
    rename_i hf
    rw [encode_of_decodeFamilyE h]
    exact formatXB_of_family (nibble_eq_of_toNat hf)
  case h_16 =>
    rw [encode_of_decodeFamilyF h]
    have hlt := (fieldF op).isLt
    simp only [imp_false] at *
    have hf : (fieldF op).toNat = 0xF := by omega
    exact formatXB_of_family (nibble_eq_of_toNat hf)

/-! ### The rows -/

/-- R96: the word of every instruction is of the instruction's row. -/
theorem encode_matches_row (i : Instr) : encode i &&& (opcodeRow i).mask = (opcodeRow i).pattern := by
  cases i with
  | cls => exact Laws.FixedBits.cls
  | ret => exact Laws.FixedBits.ret
  | jp => exact Laws.FixedBits.jp ..
  | call => exact Laws.FixedBits.call ..
  | seVxNn => exact Laws.FixedBits.seVxNn ..
  | sneVxNn => exact Laws.FixedBits.sneVxNn ..
  | seVxVy => exact Laws.FixedBits.seVxVy ..
  | sneVxVy => exact Laws.FixedBits.sneVxVy ..
  | ldVxNn => exact Laws.FixedBits.ldVxNn ..
  | addVxNn => exact Laws.FixedBits.addVxNn ..
  | ldVxVy => exact Laws.FixedBits.ldVxVy ..
  | orVxVy => exact Laws.FixedBits.orVxVy ..
  | andVxVy => exact Laws.FixedBits.andVxVy ..
  | xorVxVy => exact Laws.FixedBits.xorVxVy ..
  | addVxVy => exact Laws.FixedBits.addVxVy ..
  | subVxVy => exact Laws.FixedBits.subVxVy ..
  | shrVxVy => exact Laws.FixedBits.shrVxVy ..
  | subnVxVy => exact Laws.FixedBits.subnVxVy ..
  | shlVxVy => exact Laws.FixedBits.shlVxVy ..
  | ldI => exact Laws.FixedBits.ldI ..
  | rnd => exact Laws.FixedBits.rnd ..
  | drw => exact Laws.FixedBits.drw ..
  | skp => exact Laws.FixedBits.skp ..
  | sknp => exact Laws.FixedBits.sknp ..
  | ldVxDt => exact Laws.FixedBits.ldVxDt ..
  | ldVxK => exact Laws.FixedBits.ldVxK ..
  | ldDtVx => exact Laws.FixedBits.ldDtVx ..
  | ldStVx => exact Laws.FixedBits.ldStVx ..
  | addIVx => exact Laws.FixedBits.addIVx ..
  | ldFVx => exact Laws.FixedBits.ldFVx ..
  | ldBVx => exact Laws.FixedBits.ldBVx ..
  | ldMemVx => exact Laws.FixedBits.ldMemVx ..
  | ldVxMem => exact Laws.FixedBits.ldVxMem ..

/-- The family's mask fixes the family of a word. -/
theorem fieldF_of_mask {op p : Word} {f : Nibble} (h : op &&& 0xF000 = p) (hf : fieldF p = f) : fieldF op = f := by
  rw [← hf, ← h, ← formatA_fields op, formatA_mask, fieldF_formatA, fieldF_formatA]

/-- The mask of a two-register row fixes the family and the function nibble of a word. -/
theorem formatXYN_of_mask {op p : Word} {f n : Nibble} (h : op &&& 0xF00F = p) (hp : p = formatXYN f 0 0 n) :
    formatXYN f (fieldX op) (fieldY op) n = op := by
  have hop : formatXYN (fieldF op) 0 0 (fieldN op) = formatXYN f 0 0 n := by
    rw [← hp, ← h, ← formatXY_mask, formatXYN_fields]
  obtain rfl : fieldF op = f := by simpa using congrArg fieldF hop
  obtain rfl : fieldN op = n := by simpa using congrArg fieldN hop
  exact formatXYN_fields op

/-- The mask of a row with a fixed byte fixes the family and the byte of a word. -/
theorem formatXB_of_mask {op p : Word} {f : Nibble} {nn : Byte} (h : op &&& 0xF0FF = p) (hp : p = formatXB f 0 nn) :
    formatXB f (fieldX op) nn = op := by
  have hop : formatXB (fieldF op) 0 (fieldNN op) = formatXB f 0 nn := by
    rw [← hp, ← h, ← formatXF_mask, formatXB_fields]
  obtain rfl : fieldF op = f := by simpa using congrArg fieldF hop
  obtain rfl : fieldNN op = nn := by simpa using congrArg fieldNN hop
  exact formatXB_fields op

/-- R96: a word that matches a row is the word of an instruction of the row, whose operands are the word's fields. -/
theorem exists_encode_of_match {op : Word} (j : Instr) (h : op &&& (opcodeRow j).mask = (opcodeRow j).pattern) :
    ∃ i, encode i = op ∧ opcodeRow i = opcodeRow j := by
  cases j with simp only [opcodeRow] at h
  | cls => exact ⟨.cls, h.symm.trans BitVec.and_allOnes, rfl⟩
  | ret => exact ⟨.ret, h.symm.trans BitVec.and_allOnes, rfl⟩
  | jp => exact ⟨.jp (fieldNNN op), formatA_of_family (fieldF_of_mask h (by decide)), rfl⟩
  | call => exact ⟨.call (fieldNNN op), formatA_of_family (fieldF_of_mask h (by decide)), rfl⟩
  | seVxNn => exact ⟨.seVxNn (fieldX op) (fieldNN op), formatXB_of_family (fieldF_of_mask h (by decide)), rfl⟩
  | sneVxNn => exact ⟨.sneVxNn (fieldX op) (fieldNN op), formatXB_of_family (fieldF_of_mask h (by decide)), rfl⟩
  | seVxVy => exact ⟨.seVxVy (fieldX op) (fieldY op), formatXYN_of_mask h (by decide), rfl⟩
  | sneVxVy => exact ⟨.sneVxVy (fieldX op) (fieldY op), formatXYN_of_mask h (by decide), rfl⟩
  | ldVxNn => exact ⟨.ldVxNn (fieldX op) (fieldNN op), formatXB_of_family (fieldF_of_mask h (by decide)), rfl⟩
  | addVxNn => exact ⟨.addVxNn (fieldX op) (fieldNN op), formatXB_of_family (fieldF_of_mask h (by decide)), rfl⟩
  | ldVxVy => exact ⟨.ldVxVy (fieldX op) (fieldY op), formatXYN_of_mask h (by decide), rfl⟩
  | orVxVy => exact ⟨.orVxVy (fieldX op) (fieldY op), formatXYN_of_mask h (by decide), rfl⟩
  | andVxVy => exact ⟨.andVxVy (fieldX op) (fieldY op), formatXYN_of_mask h (by decide), rfl⟩
  | xorVxVy => exact ⟨.xorVxVy (fieldX op) (fieldY op), formatXYN_of_mask h (by decide), rfl⟩
  | addVxVy => exact ⟨.addVxVy (fieldX op) (fieldY op), formatXYN_of_mask h (by decide), rfl⟩
  | subVxVy => exact ⟨.subVxVy (fieldX op) (fieldY op), formatXYN_of_mask h (by decide), rfl⟩
  | shrVxVy => exact ⟨.shrVxVy (fieldX op) (fieldY op), formatXYN_of_mask h (by decide), rfl⟩
  | subnVxVy => exact ⟨.subnVxVy (fieldX op) (fieldY op), formatXYN_of_mask h (by decide), rfl⟩
  | shlVxVy => exact ⟨.shlVxVy (fieldX op) (fieldY op), formatXYN_of_mask h (by decide), rfl⟩
  | ldI => exact ⟨.ldI (fieldNNN op), formatA_of_family (fieldF_of_mask h (by decide)), rfl⟩
  | rnd => exact ⟨.rnd (fieldX op) (fieldNN op), formatXB_of_family (fieldF_of_mask h (by decide)), rfl⟩
  | drw => exact ⟨.drw (fieldX op) (fieldY op) (fieldN op), formatXYN_of_family (fieldF_of_mask h (by decide)), rfl⟩
  | skp => exact ⟨.skp (fieldX op), formatXB_of_mask h (by decide), rfl⟩
  | sknp => exact ⟨.sknp (fieldX op), formatXB_of_mask h (by decide), rfl⟩
  | ldVxDt => exact ⟨.ldVxDt (fieldX op), formatXB_of_mask h (by decide), rfl⟩
  | ldVxK => exact ⟨.ldVxK (fieldX op), formatXB_of_mask h (by decide), rfl⟩
  | ldDtVx => exact ⟨.ldDtVx (fieldX op), formatXB_of_mask h (by decide), rfl⟩
  | ldStVx => exact ⟨.ldStVx (fieldX op), formatXB_of_mask h (by decide), rfl⟩
  | addIVx => exact ⟨.addIVx (fieldX op), formatXB_of_mask h (by decide), rfl⟩
  | ldFVx => exact ⟨.ldFVx (fieldX op), formatXB_of_mask h (by decide), rfl⟩
  | ldBVx => exact ⟨.ldBVx (fieldX op), formatXB_of_mask h (by decide), rfl⟩
  | ldMemVx => exact ⟨.ldMemVx (fieldX op), formatXB_of_mask h (by decide), rfl⟩
  | ldVxMem => exact ⟨.ldVxMem (fieldX op), formatXB_of_mask h (by decide), rfl⟩

/-- R96: a word matches a row iff the decoder reads an instruction of that row from it. -/
theorem match_iff_decodeWord (op : Word) (j : Instr) :
    op &&& (opcodeRow j).mask = (opcodeRow j).pattern ↔ ∃ i, decodeWord op = some i ∧ opcodeRow i = opcodeRow j := by
  constructor
  · intro h
    obtain ⟨i, rfl, hrow⟩ := exists_encode_of_match j h
    exact ⟨i, decodeWord_encode i, hrow⟩
  · rintro ⟨i, hdec, hrow⟩
    rw [← encode_of_decodeWord hdec, ← hrow]
    exact encode_matches_row i

/-- No word is of two different rows: the decoder reads one instruction from it. -/
theorem opcodeRow_eq_of_match {op : Word} {j k : Instr} (hj : op &&& (opcodeRow j).mask = (opcodeRow j).pattern)
    (hk : op &&& (opcodeRow k).mask = (opcodeRow k).pattern) : opcodeRow j = opcodeRow k := by
  obtain ⟨i, hi, hij⟩ := (match_iff_decodeWord op j).mp hj
  obtain ⟨i', hi', hik⟩ := (match_iff_decodeWord op k).mp hk
  obtain rfl : i = i' := Option.some.inj (hi.symm.trans hi')
  exact hij.symm.trans hik

/-- The table lists no row twice. -/
theorem rows_nodup : (rowInstrs.map opcodeRow).Nodup := by decide

/-- The row of an instruction does not depend on its operands, so it is one of the table's. -/
theorem opcodeRow_mem_rows (i : Instr) : opcodeRow i ∈ rowInstrs.map opcodeRow := by
  cases i <;> simp only [opcodeRow] <;> decide

/-- Settles O4: a match is an encoding of the row, encoder and decoder undo each other, and the rows differ. -/
theorem opcodeRowsDecide : Obligations.OpcodeRowsDecide := by
  refine ⟨rfl, ?disjoint, fun op j _ => match_iff_decodeWord op j, ?covered⟩
  case disjoint =>
    rintro j hj k hk hne op ⟨hopj, hopk⟩
    exact hne (List.inj_on_of_nodup_map rows_nodup hj hk (opcodeRow_eq_of_match hopj hopk))
  case covered =>
    intro i
    obtain ⟨j, hj, hrow⟩ := List.mem_map.mp (opcodeRow_mem_rows i)
    exact ⟨j, hj, hrow.symm⟩

end Sys2Proof

/-! PROOFS. Families 0, 1 and 2 (spec 40_family0_flow.md): what clear, return, jump and call answer, case by case, and the
statements about them. -/

namespace Sys2Proof.Machine

/-! ### What a frame says of the registers and of memory -/

theorem State.regsKept_of_v {s t : State} (hv : t.v = s.v) : s.RegsKeptBut t [] :=
  fun r _ => State.reg_congr hv r

theorem State.bytesKept_of_mem {s t : State} (hm : t.mem = s.mem) (hc : t.cfg = s.cfg) : s.BytesKept t :=
  State.memRead_congr hm hc

/-! ### What the four instructions answer -/

variable (s : State)

theorem exec_cls : exec .cls s = .next { s.advance with disp := clearDisplay } := rfl

theorem exec_jp (nnn : Addr) : exec (.jp nnn) s = .next (s.advance.jump (zextAddr nnn)) := rfl

/-- R213: the return with nothing on the stack. -/
theorem exec_ret_empty (h : s.sp.toNat = 0) : exec .ret s = .next (s.raise .stackUnderflow (encode .ret)) := by
  rw [exec, execRet, if_pos h]

theorem exec_ret_pop (h0 : s.sp.toNat ≠ 0) (h : s.sp.toNat ≤ 16) : exec .ret s = .next s.advance.pop := by
  rw [exec, execRet, if_neg h0, if_pos h]

theorem exec_call_push (nnn : Addr) (h : s.sp.toNat < 16) :
    exec (.call nnn) s = .next (s.advance.push.jump (zextAddr nnn)) := by
  rw [exec, execCall, if_pos h]

/-- R212: the call with no slot left. -/
theorem exec_call_full (nnn : Addr) (h : s.sp.toNat = 16) :
    exec (.call nnn) s = .next (s.raise .stackOverflow (encode (.call nnn))) := by
  rw [exec, execCall, if_neg (by omega), if_pos h]

/-! ### The values they write -/

/-- An address of 12 bits keeps its value in a word (10_state.md R24). -/
@[simp] theorem toNat_zextAddr (nnn : Addr) : (zextAddr nnn).toNat = nnn.toNat :=
  BitVec.toNat_setWidth_of_le (by decide)

/-- A depth below the capacity goes up by 1. -/
theorem toNat_add_one {b : Byte} (h : b.toNat < 16) : (b + 1).toNat = b.toNat + 1 := by
  bv_omega

/-- R122: a pop leaves the depth one lower. -/
theorem State.pop_sp_toNat (h0 : s.sp.toNat ≠ 0) (h : s.sp.toNat ≤ 16) : s.pop.sp.toNat = s.sp.toNat - 1 := by
  rw [State.pop_eq s h0 h]
  exact toNat_sub_one h0

/-- R122: a pop moves the top slot into the program counter. -/
theorem State.pop_pc {k : Fin 16} (h : s.sp.toNat = k.val + 1) : s.pop.pc = s.stack[k] := by
  rw [State.pop_eq s (by omega) (by omega)]
  simp [h]

/-- R124: a push leaves the depth one higher. -/
theorem State.push_sp_toNat (h : s.sp.toNat < 16) : s.push.sp.toNat = s.sp.toNat + 1 := by
  rw [State.push_eq s h]
  exact toNat_add_one h

/-- R124: a push writes the program counter into the slot at the depth, and no other slot. -/
theorem State.push_stack_get {k : Fin 16} (h : s.sp.toNat = k.val) (j : Fin 16) :
    s.push.stack[j] = if j = k then s.pc else s.stack[j] := by
  rw [State.push_eq s (by omega)]
  simp [Vector.getElem_set, h, Fin.ext_iff, eq_comm]

/-! ### What they leave alone -/

/-- R122: a pop writes the depth and the program counter and nothing else. -/
theorem State.pop_writes : s.pop = { s with sp := s.pop.sp, pc := s.pop.pc } := by
  unfold State.pop
  split <;> rfl

/-- R124: a push writes the stack and the depth and nothing else. -/
theorem State.push_writes : s.push = { s with stack := s.push.stack, sp := s.push.sp } := by
  unfold State.push
  split <;> rfl

end Sys2Proof.Machine

/-! ### The statements (in a namespace of their own: `Machine.clearDisplay` is the model's cleared display) -/

namespace Sys2Proof.Flow

open Sys2Proof.Machine

/-- Settles O21: every cell of the display it writes is clear. -/
theorem clearDisplay : Obligations.ClearDisplay := fun s =>
  ⟨_, exec_cls s, rfl, displayCell_clear, rfl, State.regsKept_of_v rfl, State.bytesKept_of_mem rfl rfl⟩

/-- Settles O22: the pop of a stack that is not empty, and the fault of one that is. -/
theorem returnPops : Obligations.ReturnPops := by
  constructor
  · intro s k hk
    have hsp : s.advance.sp.toNat = k.val + 1 := hk
    refine ⟨_, exec_ret_pop s (by omega) (by omega), ?depth, State.pop_pc s.advance hsp, ?frame,
      State.regsKept_of_v (by simp), State.bytesKept_of_mem (by simp) (by simp)⟩
    case depth => rw [State.pop_sp_toNat _ (by omega) (by omega), hsp, Nat.add_sub_cancel]
    case frame => exact State.pop_writes s.advance
  · intro s h
    exact exec_ret_empty s (by simp [h])

/-- Settles O23: the jump writes the program counter alone. -/
theorem jumpSetsPc : Obligations.JumpSetsPc := fun s nnn =>
  ⟨_, exec_jp s nnn, toNat_zextAddr nnn, rfl, State.regsKept_of_v rfl, State.bytesKept_of_mem rfl rfl⟩

/-- Settles O24: the push while there is room, and the fault of a full stack. -/
theorem callPushes : Obligations.CallPushes := by
  constructor
  · intro s nnn k hk
    have hsp : s.advance.sp.toNat = k.val := hk
    refine ⟨_, exec_call_push s nnn (by omega), ?depth, toNat_zextAddr nnn, ?top, ?others, ?frame,
      State.regsKept_of_v (by simp), State.bytesKept_of_mem (by simp) (by simp)⟩
    case depth => rw [State.jump_sp, State.push_sp_toNat _ (by omega), hsp]
    case top => rw [State.jump_stack, State.push_stack_get _ hsp, if_pos rfl, State.advance_pc]
    case others =>
      intro j hj
      rw [State.jump_stack, State.push_stack_get _ hsp, if_neg hj, State.advance_stack]
    case frame => exact congrArg (State.jump · (zextAddr nnn)) (State.push_writes s.advance)
  · intro s nnn h
    exact exec_call_full s nnn (by simp [h])

end Sys2Proof.Flow

/-! PROOFS. The skips on registers (spec 41_skips.md): what the four of them answer, what a skip writes and leaves alone, and the
statements about them. -/

namespace Sys2Proof.Machine

/-! ### What the four instructions answer -/

variable (s : State)

theorem exec_seVxNn (x : Nibble) (nn : Byte) :
    exec (.seVxNn x nn) s = .next (s.advance.skipIf (s.reg x == nn)) := rfl

theorem exec_sneVxNn (x : Nibble) (nn : Byte) :
    exec (.sneVxNn x nn) s = .next (s.advance.skipIf (s.reg x != nn)) := rfl

theorem exec_seVxVy (x y : Nibble) :
    exec (.seVxVy x y) s = .next (s.advance.skipIf (s.reg x == s.reg y)) := rfl

theorem exec_sneVxVy (x y : Nibble) :
    exec (.sneVxVy x y) s = .next (s.advance.skipIf (s.reg x != s.reg y)) := rfl

/-! ### What a skip writes and what it leaves alone -/

/-- R130: a skip instruction leaves `a + 4` where the condition holds, and `a + 2` where it does not. -/
theorem State.advance_skipIf_pc (c : Bool) : (s.advance.skipIf c).pc = if c then s.pc + 4 else s.pc + 2 := by
  rw [State.skipIf_pc, State.advance_pc, BitVec.add_assoc]
  rfl

/-- R130: a skip instruction writes the program counter and nothing else. -/
theorem State.advance_skipIf_onlyPc (c : Bool) : s.OnlyPc (s.advance.skipIf c) :=
  State.skipIf_eq s.advance c

/-- R130: an instruction that answers the skip on `c` keeps the rule of the skips, for any condition `p` that `c` tests. -/
theorem exec_skip_frame {s : State} {i : Instr} {c : Bool} {p : Prop} [Decidable p]
    (hexec : exec i s = .next (s.advance.skipIf c)) (hc : c = true ↔ p) :
    ∃ t, exec i s = .next t ∧ t.pc = (if p then s.pc + 4 else s.pc + 2) ∧ s.OnlyPc t ∧ s.RegsKeptBut t [] ∧
      s.BytesKept t := by
  refine ⟨_, hexec, ?pc, State.advance_skipIf_onlyPc s c, State.regsKept_of_v (by simp),
    State.bytesKept_of_mem (by simp) (by simp)⟩
  case pc => simp only [State.advance_skipIf_pc, hc]

/-! ### The statements -/

/-- Settles O26: each of the two is the skip on its own comparison of `VX` with the immediate. -/
theorem skipOnImmediate : Obligations.SkipOnImmediate :=
  ⟨fun s x nn => exec_skip_frame (exec_seVxNn s x nn) beq_iff_eq,
    fun s x nn => exec_skip_frame (exec_sneVxNn s x nn) bne_iff_ne⟩

/-- Settles O27: each of the two is the skip on its own comparison of `VX` with `VY`. -/
theorem skipOnRegisters : Obligations.SkipOnRegisters :=
  ⟨fun s x y => exec_skip_frame (exec_seVxVy s x y) beq_iff_eq,
    fun s x y => exec_skip_frame (exec_sneVxVy s x y) bne_iff_ne⟩

end Sys2Proof.Machine

/-! PROOFS. Register load, add immediate and the ALU (spec 42_load_alu.md): what the eleven instructions answer, the values of
their results and flags as numbers, and the statements about them. -/

namespace Sys2Proof.Machine

/-! ### What the eleven instructions answer -/

variable (s : State)

theorem exec_ldVxNn (x : Nibble) (nn : Byte) : exec (.ldVxNn x nn) s = .next (s.advance.setReg x nn) := rfl

theorem exec_addVxNn (x : Nibble) (nn : Byte) :
    exec (.addVxNn x nn) s = .next (s.advance.setReg x (s.reg x + nn)) := rfl

theorem exec_ldVxVy (x y : Nibble) : exec (.ldVxVy x y) s = .next (s.advance.setReg x (s.reg y)) := rfl

theorem exec_orVxVy (x y : Nibble) :
    exec (.orVxVy x y) s = .next (s.advance.setReg x (s.reg x ||| s.reg y)) := rfl

theorem exec_andVxVy (x y : Nibble) :
    exec (.andVxVy x y) s = .next (s.advance.setReg x (s.reg x &&& s.reg y)) := rfl

theorem exec_xorVxVy (x y : Nibble) :
    exec (.xorVxVy x y) s = .next (s.advance.setReg x (s.reg x ^^^ s.reg y)) := rfl

theorem exec_addVxVy (x y : Nibble) : exec (.addVxVy x y) s =
    .next (s.advance.setFlagged x (carryOut (s.reg x) (s.reg y)) (s.reg x + s.reg y)) := rfl

theorem exec_subVxVy (x y : Nibble) : exec (.subVxVy x y) s =
    .next (s.advance.setFlagged x (borrowOut (s.reg x) (s.reg y)) (s.reg x - s.reg y)) := rfl

theorem exec_shrVxVy (x y : Nibble) :
    exec (.shrVxVy x y) s = .next (s.advance.setFlagged x (lowBit (s.reg y)) (s.reg y >>> 1)) := rfl

theorem exec_subnVxVy (x y : Nibble) : exec (.subnVxVy x y) s =
    .next (s.advance.setFlagged x (borrowOut (s.reg y) (s.reg x)) (s.reg y - s.reg x)) := rfl

theorem exec_shlVxVy (x y : Nibble) :
    exec (.shlVxVy x y) s = .next (s.advance.setFlagged x (highBit (s.reg y)) (s.reg y <<< 1)) := rfl

/-! ### What a register write and a flagged write leave -/

/-- R140, R142 to R147: an instruction that answers the write of `b` to `VX` leaves `b` there and nothing else but `PC`
changed, `VF` included. -/
theorem exec_setReg_frame {s : State} {i : Instr} {x : Nibble} {b : Byte}
    (hexec : exec i s = .next (s.advance.setReg x b)) :
    ∃ t, exec i s = .next t ∧ t.pc = s.pc + 2 ∧ t.reg x = b ∧
      s.OnlyRegsAndPc t ∧ s.RegsKeptBut t [x] ∧ s.BytesKept t := by
  refine ⟨_, hexec, rfl, State.reg_setReg_self _ x b, rfl, ?kept, State.bytesKept_of_mem rfl rfl⟩
  case kept =>
    intro r hr
    exact State.reg_setReg_other s.advance b (List.ne_of_not_mem_cons hr)

/-- R141: an instruction that answers the flagged write of `b` to `VX` leaves `b` there, and the flag in `VF` unless that is
`VX`; nothing else but `PC` is changed. -/
theorem exec_setFlagged_frame {s : State} {i : Instr} {x : Nibble} {c : Bool} {b : Byte}
    (hexec : exec i s = .next (s.advance.setFlagged x c b)) :
    ∃ t, exec i s = .next t ∧ t.pc = s.pc + 2 ∧ t.reg x = b ∧ (x ≠ regF → t.reg regF = flagByte c) ∧
      s.OnlyRegsAndPc t ∧ s.RegsKeptBut t [x, regF] ∧ s.BytesKept t := by
  refine ⟨_, hexec, rfl, ?result, ?flag, rfl, ?kept, State.bytesKept_of_mem rfl rfl⟩
  case result => rw [State.reg_setFlagged, if_pos rfl]
  case flag =>
    intro hx
    rw [State.reg_setFlagged, if_neg hx.symm, if_pos rfl]
  case kept =>
    intro r hr
    obtain ⟨hrx, hrF⟩ : r ≠ x ∧ r ≠ regF := by simpa using hr
    rw [State.reg_setFlagged, if_neg hrx, if_neg hrF, State.reg_advance]

/-! ### The results and the flags as numbers -/

/-- R149, R151: the difference modulo 256. -/
theorem toNat_byte_sub (a b : Byte) : (a - b).toNat = (a.toNat + 256 - b.toNat) % 256 := by
  bv_omega

/-- R150: the shift is logical. -/
theorem toNat_shiftRight_one (a : Byte) : (a >>> 1).toNat = a.toNat / 2 := by
  rw [BitVec.toNat_ushiftRight, Nat.shiftRight_eq_div_pow, pow_one]

/-- R152: bit 7 is lost. -/
theorem toNat_shiftLeft_one (a : Byte) : (a <<< 1).toNat = 2 * a.toNat % 256 := by
  rw [BitVec.toNat_shiftLeft, Nat.shiftLeft_eq, pow_one, Nat.mul_comm]

/-- R148: the carry flag. -/
theorem flagByte_carryOut (a b : Byte) : flagByte (carryOut a b) = if 255 < a.toNat + b.toNat then 1 else 0 := by
  simp [flagByte, carryOut]

/-- R149, R151: the borrow flag. -/
theorem flagByte_borrowOut (a b : Byte) : flagByte (borrowOut a b) = if a.toNat < b.toNat then 1 else 0 := by
  simp [flagByte, borrowOut]

/-- R22: a flag is the number 1 or 0. -/
theorem toNat_flagByte (c : Bool) : (flagByte c).toNat = c.toNat := by
  cases c <;> rfl

/-- R150: bit 0 is the remainder by 2. -/
theorem toNat_flagByte_lowBit (a : Byte) : (flagByte (lowBit a)).toNat = a.toNat % 2 := by
  rw [toNat_flagByte, lowBit, BitVec.getLsbD, Nat.toNat_testBit, pow_zero, Nat.div_one]

/-- R152: bit 7 is the quotient by 128. -/
theorem toNat_flagByte_highBit (a : Byte) : (flagByte (highBit a)).toNat = a.toNat / 128 := by
  rw [toNat_flagByte, highBit, BitVec.getLsbD, Nat.toNat_testBit]
  have := a.isLt
  omega

/-! ### The statements -/

/-- Settles O28: both write `VX` alone, `7XNN` the sum modulo 256. -/
theorem loadAndAddImmediate : Obligations.LoadAndAddImmediate := by
  constructor
  · exact fun s x nn => exec_setReg_frame (exec_ldVxNn s x nn)
  · intro s x nn
    obtain ⟨t, hexec, hpc, hx, frame⟩ := exec_setReg_frame (exec_addVxNn s x nn)
    exact ⟨t, hexec, hpc, hx ▸ BitVec.toNat_add .., frame⟩

/-- Settles O29: each of the four writes its own result to `VX` alone. -/
theorem copyAndLogic : Obligations.CopyAndLogic :=
  ⟨fun s x y => exec_setReg_frame (exec_ldVxVy s x y), fun s x y => exec_setReg_frame (exec_orVxVy s x y),
    fun s x y => exec_setReg_frame (exec_andVxVy s x y), fun s x y => exec_setReg_frame (exec_xorVxVy s x y)⟩

/-- Settles O30: the flagged write of the sum, its flag the carry. -/
theorem addWithCarry : Obligations.AddWithCarry := by
  intro s x y
  obtain ⟨t, hexec, hpc, hx, hF, frame⟩ := exec_setFlagged_frame (exec_addVxVy s x y)
  exact ⟨t, hexec, hpc, hx ▸ BitVec.toNat_add .., fun h => (hF h).trans (flagByte_carryOut ..), frame⟩

/-- Settles O31: the flagged write of `VX - VY`, its flag the borrow. -/
theorem subtractWithBorrow : Obligations.SubtractWithBorrow := by
  intro s x y
  obtain ⟨t, hexec, hpc, hx, hF, frame⟩ := exec_setFlagged_frame (exec_subVxVy s x y)
  exact ⟨t, hexec, hpc, hx ▸ toNat_byte_sub .., fun h => (hF h).trans (flagByte_borrowOut ..), frame⟩

/-- Settles O32: the flagged write of `VY - VX`, its flag the borrow. -/
theorem reverseSubtractWithBorrow : Obligations.ReverseSubtractWithBorrow := by
  intro s x y
  obtain ⟨t, hexec, hpc, hx, hF, frame⟩ := exec_setFlagged_frame (exec_subnVxVy s x y)
  exact ⟨t, hexec, hpc, hx ▸ toNat_byte_sub .., fun h => (hF h).trans (flagByte_borrowOut ..), frame⟩

/-- Settles O33: the flagged write of the half of `VY`, its flag the bit shifted out. -/
theorem shiftRight : Obligations.ShiftRight := by
  intro s x y
  obtain ⟨t, hexec, hpc, hx, hF, frame⟩ := exec_setFlagged_frame (exec_shrVxVy s x y)
  exact ⟨t, hexec, hpc, hx ▸ toNat_shiftRight_one _, fun h => hF h ▸ toNat_flagByte_lowBit _, frame⟩

/-- Settles O34: the flagged write of the double of `VY`, its flag the bit shifted out. -/
theorem shiftLeft : Obligations.ShiftLeft := by
  intro s x y
  obtain ⟨t, hexec, hpc, hx, hF, frame⟩ := exec_setFlagged_frame (exec_shlVxVy s x y)
  exact ⟨t, hexec, hpc, hx ▸ toNat_shiftLeft_one _, fun h => hF h ▸ toNat_flagByte_highBit _, frame⟩

end Sys2Proof.Machine

/-! PROOFS. The load of the index register (spec 43_index_random.md R160): what `ANNN` answers, and the statement about it. -/

namespace Sys2Proof.Machine

theorem exec_ldI (s : State) (nnn : Addr) : exec (.ldI nnn) s = .next { s.advance with i := zextAddr nnn } := rfl

/-- Settles O35: the load writes the zero-extended address to `I`, and reads and writes no register and no byte of memory. -/
theorem loadIndex : Obligations.LoadIndex := fun s nnn =>
  ⟨_, exec_ldI s nnn, State.advance_pc s, toNat_zextAddr nnn, rfl, State.regsKept_of_v rfl, State.bytesKept_of_mem rfl rfl⟩

end Sys2Proof.Machine

/-! PROOFS. The timer moves of family F (spec 46_familyF.md R190, R192, R193): what the three of them answer, and the statement
about them. -/

namespace Sys2Proof.Machine

variable (s : State)

theorem exec_ldVxDt (x : Nibble) : exec (.ldVxDt x) s = .next (s.advance.setReg x s.dt) := rfl

theorem exec_ldDtVx (x : Nibble) : exec (.ldDtVx x) s = .next { s.advance with dt := s.reg x } := rfl

theorem exec_ldStVx (x : Nibble) : exec (.ldStVx x) s = .next { s.advance with st := s.reg x } := rfl

/-- Settles O40: `FX07` is the write of a register, and `FX15` and `FX18` write their timer and the program counter alone. -/
theorem timerMoves : Obligations.TimerMoves := by
  refine ⟨fun s x => exec_setReg_frame (exec_ldVxDt s x), ?delay, ?sound⟩
  case delay =>
    exact fun s x => ⟨_, exec_ldDtVx s x, State.advance_pc s, rfl, rfl, State.regsKept_of_v rfl, State.bytesKept_of_mem rfl rfl⟩
  case sound =>
    exact fun s x => ⟨_, exec_ldStVx s x, State.advance_pc s, rfl, rfl, State.regsKept_of_v rfl, State.bytesKept_of_mem rfl rfl⟩

end Sys2Proof.Machine

/-! PROOFS. The faults an executed instruction takes (spec 60_exceptions.md R210 to R216): the inversion of `exec` into a halted
state, and the statements about the two faults of the stack. -/

namespace Sys2Proof.Machine

/-- The faults of decode and execute: instruction `i`, executed in `s`, takes the fault of this cause (R212 to R215). -/
inductive State.TakesFault (s : State) : Instr → Cause → Prop where
  /-- `00EE` with nothing on the stack (R213). -/
  | ret (h : s.sp = 0) : s.TakesFault .ret .stackUnderflow
  /-- `2NNN` with no slot left (R212). -/
  | call (nnn : Addr) (h : s.sp = 16) : s.TakesFault (.call nnn) .stackOverflow
  /-- `DXYN` with a sprite row outside memory (R214). -/
  | drw (x y n : Nibble) (h : ¬ dataRangeOk s.base n.toNat) : s.TakesFault (.drw x y n) .memoryOutOfRange
  /-- `EX9E` with no such key (R215). -/
  | skp (x : Nibble) (h : 15 < (s.reg x).toNat) : s.TakesFault (.skp x) .keyIndexOutOfRange
  /-- `EXA1` with no such key (R215). -/
  | sknp (x : Nibble) (h : 15 < (s.reg x).toNat) : s.TakesFault (.sknp x) .keyIndexOutOfRange
  /-- `FX33` with a digit outside memory (R214). -/
  | ldBVx (x : Nibble) (h : ¬ dataRangeOk s.base 3) : s.TakesFault (.ldBVx x) .memoryOutOfRange
  /-- `FX55` with a byte of the block outside memory (R214). -/
  | ldMemVx (x : Nibble) (h : ¬ dataRangeOk s.base (blockLength x)) : s.TakesFault (.ldMemVx x) .memoryOutOfRange
  /-- `FX65` with a byte of the block outside memory (R214). -/
  | ldVxMem (x : Nibble) (h : ¬ dataRangeOk s.base (blockLength x)) : s.TakesFault (.ldVxMem x) .memoryOutOfRange

/-! ### What the skips on keys answer, and return and call at a depth above 16 -/

section
variable (s : State) {x : Nibble}

/-- R180: the skip on a key that exists. -/
theorem exec_skp_key (h : (s.reg x).toNat < 16) :
    exec (.skp x) s = .next (s.advance.skipIf s.key[(s.reg x).toNat]) := by
  rw [exec, execSkp, State.keyFlag_some s _ h]

/-- R215: the skip on a key that does not exist. -/
theorem exec_skp_no_key (h : 15 < (s.reg x).toNat) :
    exec (.skp x) s = .next (s.raise .keyIndexOutOfRange (encode (.skp x))) := by
  rw [exec, execSkp, State.keyFlag_none s _ h]

/-- R181: the skip on a key that exists and is not down. -/
theorem exec_sknp_key (h : (s.reg x).toNat < 16) :
    exec (.sknp x) s = .next (s.advance.skipIf (!s.key[(s.reg x).toNat])) := by
  rw [exec, execSknp, State.keyFlag_some s _ h]

/-- R215: the negated skip on a key that does not exist. -/
theorem exec_sknp_no_key (h : 15 < (s.reg x).toNat) :
    exec (.sknp x) s = .next (s.raise .keyIndexOutOfRange (encode (.sknp x))) := by
  rw [exec, execSknp, State.keyFlag_none s _ h]

/-- Log entry 6: the return at a depth the stack does not have. -/
theorem exec_ret_above (h : 16 < s.sp.toNat) : exec .ret s = .fault .stackPointerOutOfRange := by
  rw [exec, execRet, if_neg (by omega), if_neg (by omega)]

/-- Log entry 6: the call at a depth the stack does not have. -/
theorem exec_call_above (nnn : Addr) (h : 16 < s.sp.toNat) : exec (.call nnn) s = .fault .stackPointerOutOfRange := by
  rw [exec, execCall, if_neg (by omega), if_neg (by omega)]

end

/-! ### From a state that is not halted into one that is -/

section
variable {s t : State} (hs : s.isHalted = false) (ht : t.isHalted = true)
include hs ht

/-- What goes into `Halted` writes the mode. -/
theorem State.mode_ne_of_halts : t.mode ≠ s.mode := fun h => by
  simp [State.isHalted_congr h, hs] at ht

/-- An instruction that answers a state with the old mode does not halt. -/
theorem not_halts_of_next {i : Instr} {u : State} (hexec : exec i s = .next u) (hu : u.mode = s.mode)
    (h : exec i s = .next t) : False := by
  obtain rfl := Host.Outcome.next.inj (hexec.symm.trans h)
  exact State.mode_ne_of_halts hs ht hu

/-- An instruction with one check, which halts, has failed it. -/
theorem check_failed_of_halts {p : Prop} [Decidable p] {u v : State} {i : Instr}
    (hexec : exec i s = if p then .next u else .next v) (hu : u.mode = s.mode) (h : exec i s = .next t) :
    ¬ p ∧ t = v := by
  by_cases hp : p
  · exact (not_halts_of_next hs ht (hexec.trans (if_pos hp)) hu h).elim
  · exact ⟨hp, Host.Outcome.next.inj (h.symm.trans (hexec.trans (if_neg hp)))⟩

/-- R216: an instruction that halts takes a fault of `TakesFault`, and does nothing else. -/
theorem exec_halts_cases {i : Instr} (h : exec i s = .next t) :
    ∃ c, s.TakesFault i c ∧ t = s.raise c (encode i) := by
  cases i with
  | ret =>
    by_cases h0 : s.sp.toNat = 0
    · exact ⟨_, .ret (BitVec.eq_of_toNat_eq h0), Host.Outcome.next.inj (h.symm.trans (exec_ret_empty s h0))⟩
    · by_cases h16 : s.sp.toNat ≤ 16
      · exact (not_halts_of_next hs ht (exec_ret_pop s h0 h16) (by simp) h).elim
      · exact nomatch (exec_ret_above s (by omega)).symm.trans h
  | call nnn =>
    rcases Nat.lt_trichotomy s.sp.toNat 16 with hlt | heq | hgt
    · exact (not_halts_of_next hs ht (exec_call_push s nnn hlt) (by simp) h).elim
    · exact ⟨_, .call nnn (BitVec.eq_of_toNat_eq heq), Host.Outcome.next.inj (h.symm.trans (exec_call_full s nnn heq))⟩
    · exact nomatch (exec_call_above s nnn hgt).symm.trans h
  | skp x =>
    by_cases hk : 15 < (s.reg x).toNat
    · exact ⟨_, .skp x hk, Host.Outcome.next.inj (h.symm.trans (exec_skp_no_key s hk))⟩
    · exact (not_halts_of_next hs ht (exec_skp_key s (by omega)) (by simp) h).elim
  | sknp x =>
    by_cases hk : 15 < (s.reg x).toNat
    · exact ⟨_, .sknp x hk, Host.Outcome.next.inj (h.symm.trans (exec_sknp_no_key s hk))⟩
    · exact (not_halts_of_next hs ht (exec_sknp_key s (by omega)) (by simp) h).elim
  | drw x y n =>
    obtain ⟨hr, rfl⟩ := check_failed_of_halts hs ht rfl (by simp) h
    exact ⟨_, .drw x y n hr, rfl⟩
  | ldBVx x =>
    obtain ⟨hr, rfl⟩ := check_failed_of_halts hs ht rfl (by simp) h
    exact ⟨_, .ldBVx x hr, rfl⟩
  | ldMemVx x =>
    obtain ⟨hr, rfl⟩ := check_failed_of_halts hs ht rfl (by simp) h
    exact ⟨_, .ldMemVx x hr, rfl⟩
  | ldVxMem x =>
    obtain ⟨hr, rfl⟩ := check_failed_of_halts hs ht rfl (by simp) h
    exact ⟨_, .ldVxMem x hr, rfl⟩
  | ldFVx x =>
    obtain ⟨-, rfl⟩ := check_failed_of_halts hs ht rfl (by simp) h
    exact (State.mode_ne_of_halts hs ht (by simp)).elim
  | ldVxK x =>
    obtain rfl := Host.Outcome.next.inj h
    exact nomatch ht
  | _ => exact (not_halts_of_next hs ht rfl (by simp) h).elim

end

/-- R216: the record of an executed instruction's fault has the cause `TakesFault` gives. -/
theorem takesFault_of_record {i : Instr} {s t : State} {r : FaultRecord} (hs : s.isHalted = false)
    (h : exec i s = .next t) (hr : t.mode = .halted r) : s.TakesFault i r.cause := by
  obtain ⟨c, hc, rfl⟩ := exec_halts_cases hs (by simp [State.isHalted, hr]) h
  obtain rfl := Mode.halted.inj hr
  exact hc

/-! ### The statements -/

/-- Settles O14: the call with no slot left, and the one case of `TakesFault` with this cause. -/
theorem stackOverflowFault : Obligations.StackOverflowFault := by
  constructor
  · intro s nnn h
    exact exec_call_full s nnn (by simp [h])
  · intro i s t r hs hexec hr hc
    have hf := takesFault_of_record hs hexec hr
    rw [hc] at hf
    cases hf with
    | call nnn hsp => exact ⟨⟨nnn, rfl⟩, hsp⟩

/-- Settles O15: the return with nothing on the stack, and the one case of `TakesFault` with this cause. -/
theorem stackUnderflowFault : Obligations.StackUnderflowFault := by
  constructor
  · intro s h
    exact exec_ret_empty s (by simp [h])
  · intro i s t r hs hexec hr hc
    have hf := takesFault_of_record hs hexec hr
    rw [hc] at hf
    cases hf with
    | ret hsp => exact ⟨rfl, hsp⟩

end Sys2Proof.Machine

/-! PROOFS. The tick (spec 60_exceptions.md R228): the statement about what it does to the timers. -/

namespace Sys2Proof.Machine

/-- Settles O52: the law of one timer, for each of the two; `tick` writes nothing else. -/
theorem tickDecrements : Obligations.TickDecrements := fun s => ⟨tick_timer s.dt, tick_timer s.st, rfl⟩

end Sys2Proof.Machine

/-! PROOFS. The decoder as a whole (spec 30_encoding.md R94, R97): the round trips on words and bytes, and the words that are no
instruction. -/

namespace Sys2Proof

/-! ### The decoder on bytes -/

/-- R90, R94: two bytes and more decode by their word. -/
theorem decodeBytes_of_some {b0 b1 : Byte} {i : Instr} (h : decodeWord (wordOfBytes b0 b1) = some i) (rest : List Byte) :
    decodeBytes (b0 :: b1 :: rest) = .instr i rest := by
  rw [decodeBytes, h]

/-- R97: two bytes and more whose word is no instruction are rejected with that word. -/
theorem decodeBytes_of_none {b0 b1 : Byte} (h : decodeWord (wordOfBytes b0 b1) = none) (rest : List Byte) :
    decodeBytes (b0 :: b1 :: rest) = .unrecognized (wordOfBytes b0 b1) := by
  rw [decodeBytes, h]

/-- R94: bytes that decode to an instruction hold its word. -/
theorem decodeWord_of_instr {b0 b1 : Byte} {rest rest' : List Byte} {i : Instr}
    (h : decodeBytes (b0 :: b1 :: rest) = .instr i rest') : decodeWord (wordOfBytes b0 b1) = some i := by
  cases hop : decodeWord (wordOfBytes b0 b1) with
  | none => exact nomatch (decodeBytes_of_none hop rest).symm.trans h
  | some j =>
    obtain ⟨rfl, -⟩ := Decoded.instr.inj ((decodeBytes_of_some hop rest).symm.trans h)
    rfl

/-- R97: bytes that are rejected as unrecognized hold the rejected word. -/
theorem decodeWord_of_unrecognized {b0 b1 : Byte} {rest : List Byte} {op : Word}
    (h : decodeBytes (b0 :: b1 :: rest) = .unrecognized op) : wordOfBytes b0 b1 = op ∧ decodeWord op = none := by
  cases hop : decodeWord (wordOfBytes b0 b1) with
  | none =>
    obtain rfl := Decoded.unrecognized.inj ((decodeBytes_of_none hop rest).symm.trans h)
    exact ⟨rfl, hop⟩
  | some j => exact nomatch (decodeBytes_of_some hop rest).symm.trans h

/-! ### The words each family leaves out -/

theorem decodeFamily0_eq_none (op : Word) : decodeFamily0 op = none ↔ op ≠ 0x00E0 ∧ op ≠ 0x00EE := by
  unfold decodeFamily0
  split_ifs with h1 h2 <;> simp [*]

theorem decodeFamily8_eq_none (x y n : Nibble) :
    decodeFamily8 x y n = none ↔ n ∈ ([0x8, 0x9, 0xA, 0xB, 0xC, 0xD, 0xF] : List Nibble) := by
  obtain ⟨n⟩ := n
  fin_cases n <;> simp [decodeFamily8]

theorem decodeFamilyE_eq_none (x : Nibble) (nn : Byte) : decodeFamilyE x nn = none ↔ nn ≠ 0x9E ∧ nn ≠ 0xA1 := by
  unfold decodeFamilyE
  split_ifs with h1 h2 <;> simp [*]

theorem decodeFamilyF_eq_none (x : Nibble) (nn : Byte) :
    decodeFamilyF x nn = none ↔ nn ∉ ([0x07, 0x0A, 0x15, 0x18, 0x1E, 0x29, 0x33, 0x55, 0x65] : List Byte) := by
  unfold decodeFamilyF
  split_ifs <;> simp [*]

/-! ### The statements -/

/-- Settles O1: the decoder, run on the nine words. -/
theorem sampleWordsDecode : Obligations.SampleWordsDecode := by
  unfold Obligations.SampleWordsDecode
  decide

/-- Settles O2: on the word by format and family, on the bytes because they put together again are the word. -/
theorem decodeOfEncode : Obligations.DecodeOfEncode := by
  intro i _
  refine ⟨decodeWord_encode i, fun rest => decodeBytes_of_some ?_ rest⟩
  rw [wordOfBytes_bytes, decodeWord_encode]

/-- Settles O3: the encoder lays the fields of a decoded word out again. -/
theorem encodeOfDecode : Obligations.EncodeOfDecode := fun _ _ => encode_of_decodeWord

/-- Settles O5: family by family, what its part of the decoder leaves out. -/
theorem unrecognizedWordsExactly : Obligations.UnrecognizedWordsExactly := by
  intro op
  obtain ⟨f, hf⟩ : ∃ f, fieldF op = BitVec.ofFin f := ⟨(fieldF op).toFin, rfl⟩
  fin_cases f <;>
    simp [decodeWord, hf, decodeFamily0_eq_none, decodeFamily8_eq_none, decodeFamilyE_eq_none, decodeFamilyF_eq_none]

end Sys2Proof

/-! PROOFS. What an executed instruction can answer (spec 30_encoding.md R96, 60_exceptions.md R216): the equations of the
instructions that have none yet, the inversion of `exec` over all of them, and the statements that follow from it alone. -/

namespace Sys2Proof.Machine

/-! ### What the remaining instructions answer -/

section
variable (s : State) (x y n : Nibble)

theorem exec_rnd (nn : Byte) : exec (.rnd x nn) s =
    .next { s.advance.setReg x (Config.draw8 s.draws &&& nn) with draws := s.draws + 1 } := rfl

theorem exec_ldVxK : exec (.ldVxK x) s = .next { s.advance with mode := .awaitingKey x } := rfl

theorem exec_addIVx : exec (.addIVx x) s = .next { s.advance with i := s.i + zextByte (s.reg x) } := rfl

/-- R195: the glyph of a digit. -/
theorem exec_ldFVx_digit (h : (s.reg x).toNat ≤ 15) :
    exec (.ldFVx x) s = .next { s.advance with i := glyphAddress (s.reg x) } := if_pos h

/-- R195: above 15 there is no glyph. -/
theorem exec_ldFVx_free (h : 15 < (s.reg x).toNat) :
    exec (.ldFVx x) s = .next { s.advance with i := Config.draw16 s.draws, draws := s.draws + 1 } :=
  if_neg (Nat.not_le.mpr h)

/-- R170: the draw with its rows inside memory. -/
theorem exec_drw_inside (h : dataRangeOk s.base n.toNat = true) : exec (.drw x y n) s =
    .next ({ s.advance with disp := (s.drawSprite x y n).disp }.setReg regF (flagByte (s.drawSprite x y n).collision)) :=
  if_pos h

/-- R214: the draw with a row outside memory. -/
theorem exec_drw_outside (h : ¬ dataRangeOk s.base n.toNat = true) :
    exec (.drw x y n) s = .next (s.raise .memoryOutOfRange (encode (.drw x y n))) := if_neg h

/-- R196: the digits with their place inside memory. -/
theorem exec_ldBVx_inside (h : dataRangeOk s.base 3 = true) :
    exec (.ldBVx x) s = .next (s.advance.memWriteBlock s.base (bcdDigits (s.reg x))) := if_pos h

/-- R214: the digits with a place outside memory. -/
theorem exec_ldBVx_outside (h : ¬ dataRangeOk s.base 3 = true) :
    exec (.ldBVx x) s = .next (s.raise .memoryOutOfRange (encode (.ldBVx x))) := if_neg h

/-- R197: the store of a block inside memory. -/
theorem exec_ldMemVx_inside (h : dataRangeOk s.base (blockLength x) = true) : exec (.ldMemVx x) s =
    .next { s.advance.memWriteBlock s.base (s.regBlock x) with i := s.i + BitVec.ofNat 16 (blockLength x) } := if_pos h

/-- R214: the store of a block that passes the end of memory. -/
theorem exec_ldMemVx_outside (h : ¬ dataRangeOk s.base (blockLength x) = true) :
    exec (.ldMemVx x) s = .next (s.raise .memoryOutOfRange (encode (.ldMemVx x))) := if_neg h

/-- R198: the load of a block inside memory. -/
theorem exec_ldVxMem_inside (h : dataRangeOk s.base (blockLength x) = true) : exec (.ldVxMem x) s =
    .next { s.advance.setRegsFrom 0 (s.memBlock s.base (blockLength x)) with
      i := s.i + BitVec.ofNat 16 (blockLength x) } := if_pos h

/-- R214: the load of a block that passes the end of memory. -/
theorem exec_ldVxMem_outside (h : ¬ dataRangeOk s.base (blockLength x) = true) :
    exec (.ldVxMem x) s = .next (s.raise .memoryOutOfRange (encode (.ldVxMem x))) := if_neg h

end

/-! ### The inversion -/

/-- The instruction writes one result to the register `x`, and no flag (R142 to R147, R190). -/
def SetsReg (i : Instr) (x : Nibble) : Prop :=
  (∃ nn, i = .ldVxNn x nn ∨ i = .addVxNn x nn) ∨
  (∃ y, i = .ldVxVy x y ∨ i = .orVxVy x y ∨ i = .andVxVy x y ∨ i = .xorVxVy x y) ∨ i = .ldVxDt x

/-- The instruction writes a flag, and a result to the register `x` (R148 to R152). -/
def SetsFlagged (i : Instr) (x : Nibble) : Prop :=
  ∃ y, i = .addVxVy x y ∨ i = .subVxVy x y ∨ i = .shrVxVy x y ∨ i = .subnVxVy x y ∨ i = .shlVxVy x y

/-- What instruction `i`, executed in `s`, can leave: a state after the write of its group, or after a fault. Every answer of
`exec` is one (`answers_of_exec`). -/
inductive State.Answers (s : State) : Instr → State → Prop where
  /-- A fault (R216). -/
  | fault {i : Instr} {c : Cause} (h : s.TakesFault i c) : s.Answers i (s.raise c (encode i))
  /-- A skip, on a register or a key (R130). -/
  | skip (i : Instr) (c : Bool) : s.Answers i (s.advance.skipIf c)
  /-- A result and no flag. -/
  | setReg {i : Instr} {x : Nibble} (h : SetsReg i x) (b : Byte) : s.Answers i (s.advance.setReg x b)
  /-- A flag and a result (R141). -/
  | setFlagged {i : Instr} {x : Nibble} (h : SetsFlagged i x) (c : Bool) (b : Byte) :
      s.Answers i (s.advance.setFlagged x c b)
  /-- `00E0` (R121). -/
  | cls : s.Answers .cls { s.advance with disp := Machine.clearDisplay }
  /-- `00EE` with a return address (R122). -/
  | ret (h0 : s.sp.toNat ≠ 0) (h : s.sp.toNat ≤ 16) : s.Answers .ret s.advance.pop
  /-- `1NNN` (R123). -/
  | jp (nnn : Addr) : s.Answers (.jp nnn) (s.advance.jump (zextAddr nnn))
  /-- `2NNN` with a free slot (R124). -/
  | call (nnn : Addr) (h : s.sp.toNat < 16) : s.Answers (.call nnn) (s.advance.push.jump (zextAddr nnn))
  /-- `ANNN` (R160). -/
  | ldI (nnn : Addr) : s.Answers (.ldI nnn) { s.advance with i := zextAddr nnn }
  /-- `CXNN` (R161). -/
  | rnd (x : Nibble) (nn : Byte) : s.Answers (.rnd x nn)
      { s.advance.setReg x (Config.draw8 s.draws &&& nn) with draws := s.draws + 1 }
  /-- `DXYN` with its rows inside memory (R170). -/
  | drw (x y n : Nibble) (h : dataRangeOk s.base n.toNat = true) : s.Answers (.drw x y n)
      ({ s.advance with disp := (s.drawSprite x y n).disp }.setReg regF (flagByte (s.drawSprite x y n).collision))
  /-- `FX0A` (R191). -/
  | ldVxK (x : Nibble) : s.Answers (.ldVxK x) { s.advance with mode := .awaitingKey x }
  /-- `FX15` (R192). -/
  | ldDtVx (x : Nibble) : s.Answers (.ldDtVx x) { s.advance with dt := s.reg x }
  /-- `FX18` (R193). -/
  | ldStVx (x : Nibble) : s.Answers (.ldStVx x) { s.advance with st := s.reg x }
  /-- `FX1E` (R194). -/
  | addIVx (x : Nibble) : s.Answers (.addIVx x) { s.advance with i := s.i + zextByte (s.reg x) }
  /-- `FX29` of a digit (R195). -/
  | ldFVxDigit (x : Nibble) : s.Answers (.ldFVx x) { s.advance with i := glyphAddress (s.reg x) }
  /-- `FX29` above 15 (R195). -/
  | ldFVxFree (x : Nibble) : s.Answers (.ldFVx x)
      { s.advance with i := Config.draw16 s.draws, draws := s.draws + 1 }
  /-- `FX33` with its digits inside memory (R196). -/
  | ldBVx (x : Nibble) (h : dataRangeOk s.base 3 = true) :
      s.Answers (.ldBVx x) (s.advance.memWriteBlock s.base (bcdDigits (s.reg x)))
  /-- `FX55` with its block inside memory (R197). -/
  | ldMemVx (x : Nibble) (h : dataRangeOk s.base (blockLength x) = true) : s.Answers (.ldMemVx x)
      { s.advance.memWriteBlock s.base (s.regBlock x) with i := s.i + BitVec.ofNat 16 (blockLength x) }
  /-- `FX65` with its block inside memory (R198). -/
  | ldVxMem (x : Nibble) (h : dataRangeOk s.base (blockLength x) = true) : s.Answers (.ldVxMem x)
      { s.advance.setRegsFrom 0 (s.memBlock s.base (blockLength x)) with i := s.i + BitVec.ofNat 16 (blockLength x) }

section
variable {s t u v : State} {i : Instr}

/-- An instruction whose answer is known and is one of `Answers`. -/
theorem answers_of_next (hexec : exec i s = .next u) (hu : s.Answers i u) (h : exec i s = .next t) : s.Answers i t :=
  Host.Outcome.next.inj (hexec.symm.trans h) ▸ hu

/-- An instruction with one check, whose two answers are known and are of `Answers`. -/
theorem answers_of_check {p : Prop} [Decidable p] (hexec : exec i s = if p then .next u else .next v)
    (hu : p → s.Answers i u) (hv : ¬ p → s.Answers i v) (h : exec i s = .next t) : s.Answers i t := by
  by_cases hp : p
  · exact answers_of_next (hexec.trans (if_pos hp)) (hu hp) h
  · exact answers_of_next (hexec.trans (if_neg hp)) (hv hp) h

/-- Every answer of `exec` is one of `Answers`. -/
theorem answers_of_exec (h : exec i s = .next t) : s.Answers i t := by
  cases i with
  | cls => exact answers_of_next rfl .cls h
  | ret =>
    by_cases h0 : s.sp.toNat = 0
    · exact answers_of_next (exec_ret_empty s h0) (.fault (.ret (BitVec.eq_of_toNat_eq h0))) h
    · by_cases h16 : s.sp.toNat ≤ 16
      · exact answers_of_next (exec_ret_pop s h0 h16) (.ret h0 h16) h
      · exact nomatch (exec_ret_above s (by omega)).symm.trans h
  | jp nnn => exact answers_of_next rfl (.jp nnn) h
  | call nnn =>
    rcases Nat.lt_trichotomy s.sp.toNat 16 with hlt | heq | hgt
    · exact answers_of_next (exec_call_push s nnn hlt) (.call nnn hlt) h
    · exact answers_of_next (exec_call_full s nnn heq) (.fault (.call nnn (BitVec.eq_of_toNat_eq heq))) h
    · exact nomatch (exec_call_above s nnn hgt).symm.trans h
  | skp x =>
    by_cases hk : 15 < (s.reg x).toNat
    · exact answers_of_next (exec_skp_no_key s hk) (.fault (.skp x hk)) h
    · exact answers_of_next (exec_skp_key s (by omega)) (.skip ..) h
  | sknp x =>
    by_cases hk : 15 < (s.reg x).toNat
    · exact answers_of_next (exec_sknp_no_key s hk) (.fault (.sknp x hk)) h
    · exact answers_of_next (exec_sknp_key s (by omega)) (.skip ..) h
  | seVxNn | sneVxNn | seVxVy | sneVxVy => exact answers_of_next rfl (.skip ..) h
  | ldVxNn | addVxNn | ldVxVy | orVxVy | andVxVy | xorVxVy | ldVxDt =>
    exact answers_of_next rfl (.setReg (by simp [SetsReg]) _) h
  | addVxVy | subVxVy | shrVxVy | subnVxVy | shlVxVy =>
    exact answers_of_next rfl (.setFlagged (by simp [SetsFlagged]) _ _) h
  | ldI nnn => exact answers_of_next rfl (.ldI nnn) h
  | rnd x nn => exact answers_of_next rfl (.rnd x nn) h
  | drw x y n => exact answers_of_check rfl (.drw x y n) (fun hr => .fault (.drw x y n hr)) h
  | ldVxK x => exact answers_of_next rfl (.ldVxK x) h
  | ldDtVx x => exact answers_of_next rfl (.ldDtVx x) h
  | ldStVx x => exact answers_of_next rfl (.ldStVx x) h
  | addIVx x => exact answers_of_next rfl (.addIVx x) h
  | ldFVx x => exact answers_of_check rfl (fun _ => .ldFVxDigit x) (fun _ => .ldFVxFree x) h
  | ldBVx x => exact answers_of_check rfl (.ldBVx x) (fun hr => .fault (.ldBVx x hr)) h
  | ldMemVx x => exact answers_of_check rfl (.ldMemVx x) (fun hr => .fault (.ldMemVx x hr)) h
  | ldVxMem x => exact answers_of_check rfl (.ldVxMem x) (fun hr => .fault (.ldVxMem x hr)) h

end

/-! ### The statements -/

/-- Settles O16: what the two skips do with no such key, and the two cases of `TakesFault` with this cause. -/
theorem keyIndexFault : Obligations.KeyIndexFault := by
  constructor
  · exact fun s x h => ⟨exec_skp_no_key s h, exec_sknp_no_key s h⟩
  · intro i s t r hs hexec hr hc
    have hf := takesFault_of_record hs hexec hr
    rw [hc] at hf
    cases hf with
    | skp x hx => exact ⟨x, .inl rfl, hx⟩
    | sknp x hx => exact ⟨x, .inr rfl, hx⟩

/-- Settles O17: an instruction that halts answers `raise`, and `TakesFault` has these eight instructions. -/
theorem faultsArePrecise : Obligations.FaultsArePrecise := by
  intro i s t r hs hexec hr
  obtain ⟨c, hc, rfl⟩ := exec_halts_cases hs (by simp [State.isHalted, hr]) hexec
  obtain rfl := Mode.halted.inj hr
  refine ⟨rfl, ?_⟩
  cases hc <;> simp

/-- Settles O48: in each case of `Answers`, the fields its write leaves alone; all but the two that store a block leave the
memory list and the font, and so every byte. -/
theorem whoWritesWhat : Obligations.WhoWritesWhat := by
  intro i s t h
  cases answers_of_exec h with
  | ldBVx | ldMemVx => simp
  | _ => simp [State.memRead]

/-- R198: a block load leaves the registers above `X`. -/
theorem reg_blockLoad_above (s : State) {x r : Nibble} (h : x.toNat < r.toNat) (bs : List Byte)
    (hbs : bs.length = blockLength x) : (s.setRegsFrom 0 bs).reg r = s.reg r := by
  have := x.isLt
  unfold blockLength at hbs
  rw [State.reg_setRegsFrom _ _ _ _ (by omega), dif_neg (by omega)]

/-- A register that differs after the write of `VX` is `VX`. -/
theorem eq_of_reg_setReg_ne {s : State} {x r : Nibble} {b : Byte} (h : (s.setReg x b).reg r ≠ s.reg r) : x = r := by
  by_contra hx
  exact h (State.reg_setReg_other s b (Ne.symm hx))

/-- Settles O49: a write of one register changes `VF` only where it names it, and the rest write none but as a flag. -/
theorem flagRegisterWriters : Obligations.FlagRegisterWriters := by
  intro i s t h hne
  cases answers_of_exec h with
  | setReg hx b =>
    obtain rfl := eq_of_reg_setReg_ne hne
    rcases hx with hx | hx | hx
    · obtain ⟨nn, rfl | rfl⟩ := hx <;> simp
    · exact .inr (.inr (.inr (.inl hx)))
    · exact .inr (.inr (.inr (.inr (.inl hx))))
  | setFlagged hx c b => exact .inl ⟨_, hx⟩
  | drw x y n => exact .inr (.inl ⟨x, y, n, rfl⟩)
  | rnd x nn =>
    obtain rfl : x = regF := eq_of_reg_setReg_ne (s := s.advance) hne
    exact .inr (.inr (.inl ⟨nn, .inr (.inr rfl)⟩))
  | ldVxMem x =>
    suffices x = regF by simp [this]
    by_contra hx
    have hlt : x.toNat < regF.toNat := by
      have hF : regF.toNat = 15 := rfl
      have hne15 := BitVec.toNat_ne.mp hx
      have := x.isLt
      omega
    exact hne (reg_blockLoad_above s.advance hlt _ (State.memBlock_length ..))
  | _ => exact absurd (State.reg_congr (by simp) regF) hne

end Sys2Proof.Machine

/-! PROOFS. Single instructions: the statements about a return after a call (spec 40_family0_flow.md), the random byte
(43_index_random.md), the skips on keys (45_keyskip.md), and the key wait, the index and the font (46_familyF.md). -/

namespace Sys2Proof.Machine

/-! ### Return after call -/

/-- Settles O25: the return pops the slot the call wrote, and takes back what it added to the depth. -/
theorem callThenReturn : Obligations.CallThenReturn := by
  intro s t u nnn hsp hcall hstack hdepth
  obtain rfl := Host.Outcome.next.inj ((exec_call_push s nnn hsp).symm.trans hcall)
  have hpush : s.advance.push.sp.toNat = s.sp.toNat + 1 := State.push_sp_toNat s.advance hsp
  have hu : u.sp.toNat = s.sp.toNat + 1 := (congrArg BitVec.toNat hdepth).trans hpush
  refine ⟨_, exec_ret_pop u (by omega) (by omega), ?pc, ?depth⟩
  case pc =>
    have htop : s.advance.sp.toNat = (⟨s.sp.toNat, hsp⟩ : Fin 16).val := rfl
    rw [State.pop_pc u.advance (k := ⟨s.sp.toNat, hsp⟩) hu, State.advance_stack, hstack, State.jump_stack,
      State.push_stack_get s.advance htop, if_pos rfl, State.advance_pc]
  case depth =>
    apply BitVec.eq_of_toNat_eq
    rw [State.pop_sp_toNat u.advance (by simp [hu]) (by simp [hu]; omega), State.advance_sp, hu, Nat.add_sub_cancel]

/-! ### Random byte, key skips, key wait, index and font -/

/-- Settles O36: the write of the drawn byte under the mask, and of the count of draws. -/
theorem randomUnderMask : Obligations.RandomUnderMask := by
  intro s x nn
  have hx : (s.advance.setReg x (Config.draw8 s.draws &&& nn)).reg x = Config.draw8 s.draws &&& nn :=
    State.reg_setReg_self ..
  refine ⟨_, exec_rnd s x nn, rfl, hx, ?mask, rfl, rfl, ?kept, State.bytesKept_of_mem rfl rfl⟩
  case mask =>
    refine (congrArg (· &&& ~~~nn) hx).trans ?_
    rw [BitVec.and_assoc, BitVec.and_not_self]
    exact BitVec.and_zero
  case kept =>
    intro r hr
    exact State.reg_setReg_other s.advance _ (List.ne_of_not_mem_cons hr)

/-- Settles O39: each of the two is the skip on its own test of the key's flag. -/
theorem skipOnKey : Obligations.SkipOnKey := by
  constructor
  · intro s x k hk
    have hlt : (s.reg x).toNat < 16 := hk ▸ k.isLt
    exact exec_skip_frame (exec_skp_key s hlt) (by simp [hk])
  · intro s x k hk
    have hlt : (s.reg x).toNat < 16 := hk ▸ k.isLt
    exact exec_skip_frame (exec_sknp_key s hlt) (by simp [hk])

/-- Settles O41: the wait writes the mode and the program counter alone. -/
theorem keyWaitStarts : Obligations.KeyWaitStarts := fun s x =>
  ⟨_, exec_ldVxK s x, State.advance_pc s, rfl, rfl, State.regsKept_of_v rfl, State.bytesKept_of_mem rfl rfl⟩

/-- A byte keeps its value in a word (46_familyF.md R194). -/
@[simp] theorem toNat_zextByte (b : Byte) : (zextByte b).toNat = b.toNat :=
  BitVec.toNat_setWidth_of_le (by decide)

/-- R195: the glyph of a digit is five bytes after the one before. -/
theorem toNat_glyphAddress {t : Byte} (h : t.toNat ≤ 15) : (glyphAddress t).toNat = 5 * t.toNat := by
  rw [glyphAddress, BitVec.toNat_mul, toNat_zextByte]
  exact Nat.mod_eq_of_lt (by simp; omega)

/-- Settles O42: the sum of two words, one of them a zero-extended register. -/
theorem addToIndex : Obligations.AddToIndex := by
  intro s x
  refine ⟨_, exec_addIVx s x, State.advance_pc s, ?sum, rfl, State.regsKept_of_v rfl, State.bytesKept_of_mem rfl rfl⟩
  case sum => exact (BitVec.toNat_add ..).trans (by rw [toNat_zextByte])

/-- Settles O43: the glyph of a digit, and the free value above 15. -/
theorem fontAddress : Obligations.FontAddress := by
  constructor
  · exact fun s x h => ⟨_, exec_ldFVx_digit s x h, State.advance_pc s, toNat_glyphAddress h, rfl,
      State.regsKept_of_v rfl, State.bytesKept_of_mem rfl rfl⟩
  · exact fun s x h => ⟨_, exec_ldFVx_free s x h, State.advance_pc s, rfl, rfl, rfl,
      State.regsKept_of_v rfl, State.bytesKept_of_mem rfl rfl⟩

end Sys2Proof.Machine

/-! PROOFS. Memory blocks and sprites (spec 44_draw.md R170 to R175, 46_familyF.md R196 to R198): what `FX33`, `FX55`, `FX65` and
`DXYN` leave when their range is inside memory. -/

namespace Sys2Proof.Machine

/-! ### Ranges, and the index after a block -/

/-- R64: a block of `X + 1` bytes from `I` on is inside memory iff its last byte is. -/
theorem blockRange_iff (s : State) (x : Nibble) :
    dataRangeOk s.base (blockLength x) = true ↔ s.i.toNat + x.toNat ≤ 4095 := by
  rw [dataRangeOk_iff, State.base, blockLength]
  omega

/-- R64: three bytes from `I` on are inside memory iff the third is. -/
theorem digitsRange_iff (s : State) : dataRangeOk s.base 3 = true ↔ s.i.toNat + 2 ≤ 4095 := by
  rw [dataRangeOk_iff, State.base]
  omega

/-- R64: the rows of a sprite are inside memory iff there is none or the last is. -/
theorem spriteRange_iff (s : State) (n : Nibble) :
    dataRangeOk s.base n.toNat = true ↔ n.toNat = 0 ∨ s.i.toNat + n.toNat - 1 ≤ 4095 := by
  rw [dataRangeOk_iff, State.base]
  omega

/-- R197, R198: where `I` stands after a block inside memory. -/
theorem toNat_index_after_block {i : Word} {x : Nibble} (h : i.toNat + x.toNat ≤ 4095) :
    (i + BitVec.ofNat 16 (blockLength x)).toNat = i.toNat + x.toNat + 1 := by
  simp only [BitVec.toNat_add, BitVec.toNat_ofNat, blockLength]
  omega

/-! ### Registers and bytes, one by one -/

/-- Two states with the same registers have the same register vector. -/
theorem State.v_ext {s t : State} (h : ∀ r : Nibble, t.reg r = s.reg r) : t.v = s.v :=
  Vector.ext fun k hk => h (BitVec.ofFin ⟨k, hk⟩)

/-- R66: a block read depends on the bytes alone. -/
theorem State.memBlock_congr {s t : State} (h : s.BytesKept t) (n : Nat) :
    ∀ base, t.memBlock base n = s.memBlock base n := by
  induction n with
  | zero => exact fun _ => rfl
  | succ n ih => exact fun base => congrArg₂ List.cons (h base) (ih (base + 1))

/-- R197: the byte of a block store that holds register `r`. -/
theorem State.memRead_regBlock (s u : State) (base : Nat) {x r : Nibble} (h : r.toNat ≤ x.toNat) :
    (u.memWriteBlock base (s.regBlock x)).memRead (base + r.toNat) = s.reg r := by
  have hlt : r.toNat < (s.regBlock x).length := by rw [State.regBlock_length]; omega
  rw [State.memRead_memWriteBlock_self _ u base _ hlt, State.regBlock_get s x _ hlt r.isLt, State.reg]

/-- R198: the register a block load fills from the `r`-th byte. -/
theorem State.reg_memBlock (s u : State) (base : Nat) {x r : Nibble} (h : r.toNat ≤ x.toNat) :
    (u.setRegsFrom 0 (s.memBlock base (blockLength x))).reg r = s.memRead (base + r.toNat) := by
  have hx := x.isLt
  have hlen : (s.memBlock base (blockLength x)).length = x.toNat + 1 := State.memBlock_length ..
  rw [State.reg_setRegsFrom _ _ _ _ (by omega), dif_pos (by omega)]
  exact State.memBlock_get s _ base _ (Nat.lt_succ_of_le h)

/-! ### The statements about blocks -/

/-- Settles O44: a block write of the three digits. -/
theorem decimalDigits : Obligations.DecimalDigits := by
  intro s x h
  have hget := State.memRead_memWriteBlock_self (bcdDigits (s.reg x)) s.advance s.base
  refine ⟨_, exec_ldBVx_inside s x ((digitsRange_iff s).mpr h), by simp, ?hundreds, ?tens, ?units, ?others, ?frame,
    State.regsKept_of_v (by simp)⟩
  case hundreds => exact (congrArg BitVec.toNat (hget 0 (show 0 < 3 by decide))).trans (BitVec.toNat_udiv ..)
  case tens =>
    refine (congrArg BitVec.toNat (hget 1 (show 1 < 3 by decide))).trans ((BitVec.toNat_umod ..).trans ?_)
    rw [BitVec.toNat_udiv]
    rfl
  case units => exact (congrArg BitVec.toNat (hget 2 (show 2 < 3 by decide))).trans (BitVec.toNat_umod ..)
  case others => exact fun a ha => State.memRead_memWriteBlock_other _ s.advance _ a ha
  case frame => exact State.memWriteBlock_eq _ s.advance _

/-- Settles O45: a block write of the registers, and the write of `I`. -/
theorem blockStore : Obligations.BlockStore := by
  intro s x h
  refine ⟨_, exec_ldMemVx_inside s x ((blockRange_iff s x).mpr h), by simp, toNat_index_after_block h, ?stored, ?others,
    ?frame, State.regsKept_of_v (by simp)⟩
  case stored => exact fun r hr => State.memRead_regBlock s s.advance _ hr
  case others =>
    intro a ha
    exact State.memRead_memWriteBlock_other _ s.advance _ a (by rwa [State.regBlock_length])
  case frame => simp

/-- Settles O46: a block load of the bytes at `I`, and the write of `I`. -/
theorem blockLoad : Obligations.BlockLoad := by
  intro s x h
  refine ⟨_, exec_ldVxMem_inside s x ((blockRange_iff s x).mpr h), by simp, toNat_index_after_block h, ?loaded, ?above,
    ?frame, State.bytesKept_of_mem (by simp) (by simp)⟩
  case loaded => exact fun r hr => State.reg_memBlock s s.advance _ hr
  case above => exact fun r hr => reg_blockLoad_above s.advance hr _ (State.memBlock_length ..)
  case frame => simp

/-- Settles O47: the load reads back, from the same address, the bytes the store wrote. -/
theorem storeThenLoadRestores : Obligations.StoreThenLoadRestores := by
  intro s x nnn hi hrange
  obtain ⟨t, hstore, -, -, stored, -, -, htregs⟩ := blockStore s x (by omega)
  obtain ⟨u, hindex, -, hui, -, huregs, hubytes⟩ := loadIndex t nnn
  obtain ⟨w, hload, -, -, loaded, above, -, -⟩ := blockLoad u x (by omega)
  refine ⟨t, u, w, hstore, hindex, hload, State.v_ext fun r => ?_⟩
  by_cases hr : r.toNat ≤ x.toNat
  · rw [loaded r hr, hubytes, hui, ← hi, stored r hr]
  · rw [above r (by omega), huregs r (by simp), htregs r (by simp)]

/-! ### The statements about sprites -/

/-- R22: the byte of a flag is 1 iff the flag is set. -/
theorem flagByte_eq_one (c : Bool) : flagByte c = 1 ↔ c = true := by
  cases c <;> decide

/-- R22: the byte of a flag is 1 or 0. -/
theorem flagByte_cases (c : Bool) : flagByte c = 1 ∨ flagByte c = 0 := by
  cases c <;> decide

/-- Settles O37: the laws of `drawRows`, for the rows at `I` and the origin in the registers. -/
theorem drawSprite : Obligations.DrawSprite := by
  intro s x y n h
  have hflag : ({ s.advance with disp := (s.drawSprite x y n).disp }.setReg regF
      (flagByte (s.drawSprite x y n).collision)).reg regF = flagByte (s.drawSprite x y n).collision :=
    State.reg_setReg_self ..
  refine ⟨_, exec_drw_inside s x y n ((spriteRange_iff s n).mpr h), rfl, ?cells, ?flag, ?collides, rfl, ?kept,
    State.bytesKept_of_mem rfl rfl⟩
  case cells => exact fun i j hi hj => displayCell_drawRows _ ⟨hi, hj⟩ _ _ _
  case flag => rw [hflag]; exact flagByte_cases _
  case collides =>
    rw [hflag, flagByte_eq_one, State.drawSprite, drawRows_collision]
    simp [and_comm, and_left_comm, spriteColumn, spriteRow, State.base]
  case kept =>
    intro r hr
    exact State.reg_setReg_other _ _ (List.ne_of_not_mem_cons hr)

/-- Settles O38: the second draw reads the same origin and the same rows, and a symmetric difference taken twice is none. -/
theorem drawTwiceRestores : Obligations.DrawTwiceRestores := by
  intro s x y n hx hy h
  obtain ⟨t, hdraw, -, hcells, -, hcollides, hframe, hregs, hbytes⟩ := drawSprite s x y n h
  have hi : t.i = s.i := by rw [hframe]
  have hrx : t.reg x = s.reg x := hregs x (by simpa using hx)
  have hry : t.reg y = s.reg y := hregs y (by simpa using hy)
  obtain ⟨u, hredraw, -, hcells', -, hcollides', -⟩ := drawSprite t x y n (hi ▸ h)
  rw [hi, hrx, hry, State.memBlock_congr hbytes] at hcells' hcollides'
  refine ⟨t, u, hdraw, hredraw, display_ext fun i j hiv hjv => ?cell, hcollides, hcollides'.trans ?_⟩
  case cell => rw [hcells' i j hiv hjv, hcells i j hiv hjv, Bool.xor_assoc, Bool.xor_self, Bool.xor_false]
  refine exists_congr fun i => exists_congr fun j => and_congr_right fun hiv => and_congr_right fun hjv => ?_
  refine and_congr_left fun hit => ?_
  rw [hcells i j hiv hjv, hit]
  simp

end Sys2Proof.Machine

/-! PROOFS. The step, the cycle and the batch (spec 60_exceptions.md R214, R222 to R225): what each answers, case by case, what no
cycle writes, and the statements about them. -/

namespace Sys2Proof.Machine

/-! ### The step and the mode -/

section
variable {s : State}

/-- Log entry 1: the oldest pending event is taken. -/
theorem step_event {e : HostEvent} {rest : List HostEvent} (h : s.inputs = e :: rest) :
    step s = takeEvent e { s with inputs := rest } := by
  simp only [step, h]

/-- R237: with nothing pending, a step is a cycle. -/
theorem step_cycle (h : s.inputs = []) : step s = cycle s := by
  simp only [step, h]

theorem State.isHalted_of_halted {r : FaultRecord} (h : s.mode = .halted r) : s.isHalted = true := by
  simp only [State.isHalted, h]

theorem State.isHalted_of_running (h : s.mode = .running) : s.isHalted = false := by
  simp only [State.isHalted, h]

theorem State.isHalted_of_awaiting {x : Nibble} (h : s.mode = .awaitingKey x) : s.isHalted = false := by
  simp only [State.isHalted, h]

/-! ### The cycle -/

theorem cycle_running (h : s.mode = .running) : cycle s = runCycle s.closeLoad := by
  simp only [cycle, h]

theorem cycle_awaiting {x : Nibble} (h : s.mode = .awaitingKey x) : cycle s = .next s := by
  simp only [cycle, h]

theorem cycle_halted {r : FaultRecord} (h : s.mode = .halted r) : cycle s = .next s := by
  simp only [cycle, h]

/-- R214 (a): the fetch outside memory. -/
theorem runCycle_fetch_fault (h : 4094 < s.pc.toNat) : runCycle s = .next s.raiseFetch := by
  rw [runCycle, State.fetch_none s h]

/-- R211: the fetch of a word that is no instruction. -/
theorem runCycle_unrecognized (h : s.pc.toNat ≤ 4094) {op : Word}
    (hop : wordOfBytes (s.memRead s.pc.toNat) (s.memRead (s.pc.toNat + 1)) = op) (hdec : decodeWord op = none) :
    runCycle s = .next (s.raise .unrecognizedOpcode op) := by
  simp only [runCycle, State.fetch_some s h, hop, hdec]

/-- R223: the fetch of an instruction's word. -/
theorem runCycle_exec (h : s.pc.toNat ≤ 4094) {i : Instr}
    (hdec : decodeWord (wordOfBytes (s.memRead s.pc.toNat) (s.memRead (s.pc.toNat + 1))) = some i) :
    runCycle s = exec i s := by
  simp only [runCycle, State.fetch_some s h, hdec]

/-- R223: a cycle in `Running` whose bytes are an instruction. -/
theorem cycle_decoded (hm : s.mode = .running) (h : s.pc.toNat ≤ 4094) {i : Instr}
    (hdec : decodeBytes [s.memRead s.pc.toNat, s.memRead (s.pc.toNat + 1)] = .instr i []) :
    cycle s = exec i { s with loadable := false } :=
  (cycle_running hm).trans (runCycle_exec (s := s.closeLoad) h (decodeWord_of_instr hdec))

/-- R211: a cycle in `Running` whose bytes are none. -/
theorem cycle_unrecognized (hm : s.mode = .running) (h : s.pc.toNat ≤ 4094) {op : Word}
    (hdec : decodeBytes [s.memRead s.pc.toNat, s.memRead (s.pc.toNat + 1)] = .unrecognized op) :
    cycle s = .next { s with
      pc := s.pc + 2, mode := .halted ⟨.unrecognizedOpcode, s.pc, some op⟩, loadable := false } :=
  have ⟨hop, hnone⟩ := decodeWord_of_unrecognized hdec
  (cycle_running hm).trans (runCycle_unrecognized (s := s.closeLoad) h hop hnone)

/-- R214 (a): a cycle in `Running` that fetches outside memory. -/
theorem cycle_fetch_fault (hm : s.mode = .running) (h : 4094 < s.pc.toNat) :
    cycle s = .next { s with mode := .halted ⟨.memoryOutOfRange, s.pc, none⟩, loadable := false } :=
  (cycle_running hm).trans (runCycle_fetch_fault (s := s.closeLoad) h)

end

/-! ### What no cycle writes -/

/-- `t` holds what `s` holds in the fields that are the host's: the keys, the accumulators, the parameters and the pending
events; and a load that is closed stays closed. -/
structure State.HostKept (s t : State) : Prop where
  key : t.key = s.key
  tacc : t.tacc = s.tacc
  cacc : t.cacc = s.cacc
  cfg : t.cfg = s.cfg
  inputs : t.inputs = s.inputs
  loadable : s.loadable = false → t.loadable = false

theorem State.HostKept.refl (s : State) : s.HostKept s := ⟨rfl, rfl, rfl, rfl, rfl, id⟩

theorem State.HostKept.trans {s t u : State} (h : s.HostKept t) (h' : t.HostKept u) : s.HostKept u where
  key := h'.key.trans h.key
  tacc := h'.tacc.trans h.tacc
  cacc := h'.cacc.trans h.cacc
  cfg := h'.cfg.trans h.cfg
  inputs := h'.inputs.trans h.inputs
  loadable := h'.loadable ∘ h.loadable

section
variable {s t : State}

theorem exec_hostKept {i : Instr} (h : exec i s = .next t) : s.HostKept t := by
  obtain ⟨hkey, htacc, hcacc, hcfg, hinputs, hload, -⟩ := whoWritesWhat i s t h
  exact ⟨hkey, htacc, hcacc, hcfg, hinputs, hload.trans⟩

theorem runCycle_hostKept (h : runCycle s = .next t) : s.HostKept t := by
  by_cases hpc : s.pc.toNat ≤ 4094
  · cases hdec : decodeWord (wordOfBytes (s.memRead s.pc.toNat) (s.memRead (s.pc.toNat + 1))) with
    | none =>
      obtain rfl := Host.Outcome.next.inj ((runCycle_unrecognized hpc rfl hdec).symm.trans h)
      exact ⟨rfl, rfl, rfl, rfl, rfl, id⟩
    | some i => exact exec_hostKept ((runCycle_exec hpc hdec).symm.trans h)
  · obtain rfl := Host.Outcome.next.inj ((runCycle_fetch_fault (Nat.not_le.mp hpc)).symm.trans h)
    exact ⟨rfl, rfl, rfl, rfl, rfl, id⟩

theorem State.hostKept_closeLoad : s.HostKept s.closeLoad := ⟨rfl, rfl, rfl, rfl, rfl, fun _ => rfl⟩

theorem cycle_hostKept (h : cycle s = .next t) : s.HostKept t := by
  cases hm : s.mode with
  | running => exact State.hostKept_closeLoad.trans (runCycle_hostKept ((cycle_running hm).symm.trans h))
  | awaitingKey x => exact Host.Outcome.next.inj ((cycle_awaiting hm).symm.trans h) ▸ .refl s
  | halted r => exact Host.Outcome.next.inj ((cycle_halted hm).symm.trans h) ▸ .refl s

end

/-! ### The batch -/

section
variable {n : Nat} {s t : State}

theorem runCycles_stop (h : cycle s = .next t) (ht : t.isHalted = true) : runCycles (n + 1) s = .next t := by
  simp only [runCycles, h, ht, if_true]

theorem runCycles_go_on (h : cycle s = .next t) (ht : t.isHalted = false) :
    runCycles (n + 1) s = runCycles n t := by
  simp [runCycles, h, ht]

theorem runCycles_fault {f : Fault} (h : cycle s = .fault f) : runCycles (n + 1) s = .fault f := by
  simp only [runCycles, h]

/-- R225: a batch that answers begins with a cycle that does, and ends there or goes on. -/
theorem runCycles_succ_cases (h : runCycles (n + 1) s = .next t) :
    ∃ u, cycle s = .next u ∧ (u = t ∨ runCycles n u = .next t) := by
  unfold runCycles at h
  split at h
  case h_1 u hu =>
    refine ⟨u, hu, ?_⟩
    split at h
    · exact .inl (Host.Outcome.next.inj h)
    · exact .inr h
  case h_2 | h_3 => exact nomatch h

/-- What every cycle keeps, a batch keeps: the package of its induction. -/
theorem runCycles_induction {R : State → State → Prop} (hrfl : ∀ s, R s s)
    (htrans : ∀ {s t u}, R s t → R t u → R s u) (hcycle : ∀ {s t}, cycle s = .next t → R s t) (n : Nat) :
    ∀ {s t : State}, runCycles n s = .next t → R s t := by
  induction n with
  | zero => exact fun h => Host.Outcome.next.inj h ▸ hrfl _
  | succ n ih =>
    intro s t h
    obtain ⟨u, hu, rfl | hrun⟩ := runCycles_succ_cases h
    · exact hcycle hu
    · exact htrans (hcycle hu) (ih hrun)

theorem runCycles_hostKept (h : runCycles n s = .next t) : s.HostKept t :=
  runCycles_induction .refl .trans cycle_hostKept n h

end

/-! ### The statements -/

/-- Settles O11: the step is the cycle, and the cycle is `exec` of the decoded instruction. -/
theorem stepRunsDecodedInstruction : Obligations.StepRunsDecodedInstruction :=
  fun _ _ hi hm hpc hdec _ => (step_cycle hi).trans (cycle_decoded hm hpc hdec)

/-- R97: a word is no instruction iff it matches no row of R96. -/
theorem decodeWord_eq_none_iff (op : Word) :
    decodeWord op = none ↔ ∀ j ∈ rowInstrs, op &&& (opcodeRow j).mask ≠ (opcodeRow j).pattern := by
  constructor
  · intro hnone j _ hmatch
    obtain ⟨i, hi, -⟩ := (match_iff_decodeWord op j).mp hmatch
    exact nomatch hnone.symm.trans hi
  · intro hrows
    cases hop : decodeWord op with
    | none => rfl
    | some i =>
      obtain ⟨j, hj, hrow⟩ := List.mem_map.mp (opcodeRow_mem_rows i)
      exact absurd ((match_iff_decodeWord op j).mpr ⟨i, hop, hrow.symm⟩) (hrows j hj)

/-- Settles O12: the cycle's fault, and no row for a word that does not decode. -/
theorem unrecognizedWordFaults : Obligations.UnrecognizedWordFaults := by
  refine ⟨fun s op hi hm hpc hdec => (step_cycle hi).trans (cycle_unrecognized hm hpc hdec), fun op => ?_, by decide⟩
  rw [← decodeWord_eq_none_iff]
  constructor
  · exact fun h => (decodeWord_of_unrecognized h).2
  · intro h
    have hop := decodeBytes_of_none (b0 := firstByte op) (b1 := secondByte op) (by rwa [wordOfBytes_bytes]) []
    rwa [wordOfBytes_bytes] at hop

/-- Settles O13: the fetch fault, and the failed range check of each of the four instructions. -/
theorem outOfRangeFaults : Obligations.OutOfRangeFaults := by
  refine ⟨fun s hi hm hpc => (step_cycle hi).trans (cycle_fetch_fault hm hpc), ?sprite, ?digits, ?blocks⟩
  case sprite =>
    intro s x y n hn h
    exact exec_drw_outside s x y n (by rw [spriteRange_iff]; omega)
  case digits =>
    intro s x h
    exact exec_ldBVx_outside s x (by rw [digitsRange_iff]; omega)
  case blocks =>
    intro s x h
    have hr : ¬ dataRangeOk s.base (blockLength x) = true := by rw [blockRange_iff]; omega
    exact ⟨exec_ldMemVx_outside s x hr, exec_ldVxMem_outside s x hr⟩

/-- Settles O18: the step is the cycle, which is idle in these two modes. -/
theorem idleAndHaltedCycles : Obligations.IdleAndHaltedCycles :=
  ⟨fun _ _ hi hm => (step_cycle hi).trans (cycle_awaiting hm), fun _ _ hi hm => (step_cycle hi).trans (cycle_halted hm)⟩

/-- Settles O59: the equations of the batch and of the cycle, mode by mode. -/
theorem batchRunsCycles : Obligations.BatchRunsCycles :=
  ⟨fun _ => rfl, fun _ _ _ => runCycles_stop, fun _ _ _ => runCycles_go_on, fun _ _ _ => runCycles_fault,
    fun _ => step_cycle, fun _ _ hm hpc => cycle_decoded hm hpc, fun _ _ hm hpc => cycle_unrecognized hm hpc,
    fun _ => cycle_fetch_fault,
    fun _ _ => cycle_awaiting, fun _ _ => cycle_halted⟩

end Sys2Proof.Machine

/-! PROOFS. Exact time (spec 60_exceptions.md R225 to R227): what a drained accumulator holds, the timer update over any frames, and
what a frame and a run of frames do. -/

namespace Sys2Proof.Machine

/-! ### Draining an accumulator -/

/-- What is left of the accumulated time `acc` when every whole period of `1 / rate` is taken from it: step 4 of R225, and with
`rate = 60` step 2 of R227. -/
def drained (rate acc : Rat) : Rat := acc - dueCycles rate acc / rate

section
variable {rate a b : Rat}

/-- R45 (c): less than a period is left. -/
theorem drained_bounds (hr : 0 < rate) (ha : 0 ≤ a) : 0 ≤ drained rate a ∧ drained rate a < 1 / rate := by
  obtain ⟨hle, hlt⟩ := floor_toNat_bounds (mul_nonneg ha hr.le)
  rw [drained, dueCycles, sub_nonneg, div_le_iff₀ hr, sub_lt_iff_lt_add, ← add_div, lt_div_iff₀ hr]
  exact ⟨hle, by linarith⟩

/-- Less than a period holds no whole period. -/
theorem dueCycles_eq_zero (hr : 0 < rate) (ha : 0 ≤ a) (h : a < 1 / rate) : dueCycles rate a = 0 := by
  have hlt := (lt_div_iff₀ hr).mp h
  exact floor_toNat_eq (by simpa using mul_nonneg ha hr.le) (by simpa using hlt)

theorem drained_eq_self (hr : 0 < rate) (ha : 0 ≤ a) (h : a < 1 / rate) : drained rate a = a := by
  rw [drained, dueCycles_eq_zero hr ha h, Nat.cast_zero, zero_div, sub_zero]

/-- The periods of a sum are those of its first part and those of the rest of it with the second. -/
theorem dueCycles_add (hr : 0 < rate) (ha : 0 ≤ a) (hb : 0 ≤ b) :
    dueCycles rate (a + b) = dueCycles rate a + dueCycles rate (drained rate a + b) := by
  have hrest : 0 ≤ drained rate a + b := add_nonneg (drained_bounds hr ha).1 hb
  obtain ⟨hle, hlt⟩ := floor_toNat_bounds (mul_nonneg hrest hr.le)
  have hmul : (drained rate a + b) * rate = (a + b) * rate - dueCycles rate a := by
    rw [drained]
    field_simp
    ring
  apply floor_toNat_eq <;> push_cast <;> rw [dueCycles.eq_1 rate (drained rate a + b)] <;> linarith

/-- Draining once or twice leaves the same. -/
theorem drained_add (hr : 0 < rate) (ha : 0 ≤ a) (hb : 0 ≤ b) :
    drained rate (drained rate a + b) = drained rate (a + b) := by
  rw [drained, drained.eq_1 rate (a + b), dueCycles_add hr ha hb, Nat.cast_add, drained.eq_1 rate a]
  ring

/-- R225: the batches of any frames, together, are the cycles due in their total time. -/
theorem batchSizes_sum (hr : 0 < rate) (dts : List Rat) : ∀ acc : Rat, 0 ≤ acc → acc < 1 / rate →
    (∀ dt ∈ dts, 0 ≤ dt) → (batchSizes rate acc dts).sum = dueCycles rate (acc + dts.sum) := by
  induction dts with
  | nil =>
    intro acc h0 hlt _
    rw [List.sum_nil, add_zero, dueCycles_eq_zero hr h0 hlt]
    rfl
  | cons dt dts ih =>
    intro acc h0 _ hdts
    obtain ⟨hdt, hdts⟩ := List.forall_mem_cons.mp hdts
    have hacc : 0 ≤ acc + dt := add_nonneg h0 hdt
    obtain ⟨hrest, hperiod⟩ := drained_bounds hr hacc
    rw [batchSizes, List.sum_cons, List.sum_cons, ← add_assoc, dueCycles_add hr hacc (List.sum_nonneg hdts)]
    exact congrArg _ (ih (drained rate (acc + dt)) hrest hperiod hdts)

end

/-! ### The timer update -/

section
variable (s : State) (dt : Rat)

@[simp] theorem State.timerUpdate_pc : (s.timerUpdate dt).pc = s.pc := by rw [State.timerUpdate_writes]
@[simp] theorem State.timerUpdate_sp : (s.timerUpdate dt).sp = s.sp := by rw [State.timerUpdate_writes]
@[simp] theorem State.timerUpdate_stack : (s.timerUpdate dt).stack = s.stack := by rw [State.timerUpdate_writes]
@[simp] theorem State.timerUpdate_mem : (s.timerUpdate dt).mem = s.mem := by rw [State.timerUpdate_writes]
@[simp] theorem State.timerUpdate_mode : (s.timerUpdate dt).mode = s.mode := by rw [State.timerUpdate_writes]
@[simp] theorem State.timerUpdate_cacc : (s.timerUpdate dt).cacc = s.cacc := by rw [State.timerUpdate_writes]
@[simp] theorem State.timerUpdate_cfg : (s.timerUpdate dt).cfg = s.cfg := by rw [State.timerUpdate_writes]
@[simp] theorem State.timerUpdate_inputs : (s.timerUpdate dt).inputs = s.inputs := by rw [State.timerUpdate_writes]
@[simp] theorem State.timerUpdate_loadable : (s.timerUpdate dt).loadable = s.loadable := by
  rw [State.timerUpdate_writes]

end

/-- R227: the timer update makes the ticks that are due, and drains `TACC`. -/
theorem State.timerUpdate_timers (s : State) {dt : Rat} (h : 0 ≤ s.tacc + dt) :
    (s.timerUpdate dt).dt.toNat = s.dt.toNat - dueCycles 60 (s.tacc + dt) ∧
    (s.timerUpdate dt).st.toNat = s.st.toNat - dueCycles 60 (s.tacc + dt) ∧
    (s.timerUpdate dt).tacc = drained 60 (s.tacc + dt) := by
  obtain ⟨hdt, hst, htacc, -⟩ := timerLoop_eq (dueCycles 60 (s.tacc + dt)) { s with tacc := s.tacc + dt } h rfl
  exact ⟨hdt, hst, htacc⟩

/-- R227: what a timer update leaves in the timers and in `TACC` depends on nothing but them. -/
theorem State.timerUpdate_congr {s u : State} (dt : Rat) (hd : u.dt = s.dt) (hs : u.st = s.st) (ht : u.tacc = s.tacc) :
    (u.timerUpdate dt).dt = (s.timerUpdate dt).dt ∧ (u.timerUpdate dt).st = (s.timerUpdate dt).st ∧
      (u.timerUpdate dt).tacc = (s.timerUpdate dt).tacc := by
  unfold State.timerUpdate
  rw [ht]
  exact timerLoop_congr _ _ _ hd hs rfl

/-- Settles O53: the timer loop makes the ticks that are due, and a drained accumulator is in bounds. -/
theorem timerUpdateClosedForm : Obligations.TimerUpdateClosedForm := by
  rintro s dt n h0 hdt rfl
  have hsum : 0 ≤ s.tacc + dt := add_nonneg h0 hdt
  obtain ⟨hd, hs, htacc⟩ := State.timerUpdate_timers s hsum
  obtain ⟨hlo, hhi⟩ := drained_bounds (rate := 60) (by norm_num) hsum
  rw [← htacc] at hlo hhi
  exact ⟨hd, hs, htacc, hlo, hhi, State.timerUpdate_writes s dt⟩

/-- R227: timer updates over any frames make the ticks that are due in the total time. -/
theorem foldl_timerUpdate (dts : List Rat) : ∀ s : State, 0 ≤ s.tacc → s.tacc < 1 / 60 → (∀ dt ∈ dts, 0 ≤ dt) →
    (dts.foldl State.timerUpdate s).dt.toNat = s.dt.toNat - dueCycles 60 (s.tacc + dts.sum) ∧
    (dts.foldl State.timerUpdate s).st.toNat = s.st.toNat - dueCycles 60 (s.tacc + dts.sum) := by
  induction dts with
  | nil =>
    intro s h0 hlt _
    rw [List.sum_nil, add_zero, dueCycles_eq_zero (by norm_num) h0 hlt]
    exact ⟨rfl, rfl⟩
  | cons dt dts ih =>
    intro s h0 _ hdts
    obtain ⟨hdt, hdts⟩ := List.forall_mem_cons.mp hdts
    have hsum : 0 ≤ s.tacc + dt := add_nonneg h0 hdt
    obtain ⟨hd, hs, htacc⟩ := State.timerUpdate_timers s hsum
    obtain ⟨hlo, hhi⟩ := drained_bounds (rate := 60) (by norm_num) hsum
    obtain ⟨ihd, ihs⟩ := ih (s.timerUpdate dt) (htacc ▸ hlo) (htacc ▸ hhi) hdts
    rw [List.sum_cons, ← add_assoc, dueCycles_add (by norm_num) hsum (List.sum_nonneg hdts), List.foldl_cons, ihd, ihs, hd,
      hs, htacc]
    exact ⟨Nat.sub_sub .., Nat.sub_sub ..⟩

/-- Settles O54: the ticks due in the total time, from an empty accumulator. -/
theorem timerGranularity : Obligations.TimerGranularity := by
  intro s dts h0 hdts
  have hticks := foldl_timerUpdate dts s (by rw [h0]) (by rw [h0]; norm_num) hdts
  rw [h0, zero_add] at hticks
  exact hticks

/-! ### One frame -/

/-- Where the batch of a frame begins (R225 step 1): its time is added, the event taken and the load closed. -/
def State.batchStart (s : State) (dt : Rat) (rest : List HostEvent) : State :=
  { s with cacc := s.cacc + dt, inputs := rest, loadable := false }

section
variable {s t u w : State} {dt : Rat} {rest : List HostEvent} {due : Nat}

theorem frame_eq (hdt : 0 ≤ dt) : frame dt s = if s.isHalted then .next s else runFrame dt s.closeLoad :=
  if_neg (not_lt.mpr hdt)

/-- R222: a frame in `Halted`. -/
theorem step_frame_halted (hi : s.inputs = .frame dt :: rest) (hdt : 0 ≤ dt) (hs : s.isHalted = true) :
    step s = .next { s with inputs := rest } :=
  (step_event hi).trans ((frame_eq hdt).trans (if_pos hs))

/-- R225, R226: a frame outside `Halted` is its batch and what ends it. -/
theorem step_frame (hi : s.inputs = .frame dt :: rest) (hdt : 0 ≤ dt) (hs : s.isHalted = false)
    (hrun : runCycles (dueCycles s.cfg.rateQ (s.cacc + dt)) (s.batchStart dt rest) = .next w) :
    step s = .next (w.endFrame (dueCycles s.cfg.rateQ (s.cacc + dt)) dt) := by
  have hlive : ¬ ({ s with inputs := rest } : State).isHalted = true := Bool.eq_false_iff.mp hs
  refine (step_event hi).trans ((frame_eq hdt).trans ((if_neg hlive).trans ?_))
  unfold State.batchStart at hrun
  simp only [runFrame, State.closeLoad, hrun]

/-- A frame outside `Halted` that answers has run its batch. -/
theorem exists_batch_of_step_frame (hi : s.inputs = .frame dt :: rest) (hdt : 0 ≤ dt) (hs : s.isHalted = false)
    (h : step s = .next u) :
    ∃ w, runCycles (dueCycles s.cfg.rateQ (s.cacc + dt)) (s.batchStart dt rest) = .next w := by
  have hlive : ¬ ({ s with inputs := rest } : State).isHalted = true := Bool.eq_false_iff.mp hs
  have hframe := (step_event hi).symm.trans h
  change frame dt { s with inputs := rest } = .next u at hframe
  rw [frame_eq hdt, if_neg hlive] at hframe
  unfold runFrame at hframe
  split at hframe
  case h_1 w hw => exact ⟨w, hw⟩
  case h_2 | h_3 => exact nomatch hframe

/-- R216 item 4: after a fault, a frame does nothing more. -/
theorem State.endFrame_halted (hw : w.isHalted = true) : w.endFrame due dt = w := if_pos hw

/-- R225 step 4, R226: after a batch without a fault. -/
theorem State.endFrame_live (hrun : runCycles due (s.batchStart dt rest) = .next w) (hw : w.isHalted = false) :
    w.endFrame due dt = { w with cacc := s.cacc + dt - due / s.cfg.rateQ }.timerUpdate dt := by
  have hkept := runCycles_hostKept hrun
  have hcacc : w.cacc = s.cacc + dt := hkept.cacc
  have hcfg : w.cfg = s.cfg := hkept.cfg
  rw [State.endFrame, if_neg (by simp [hw]), hcacc, hcfg]

theorem State.endFrame_inputs : (w.endFrame due dt).inputs = w.inputs := by
  unfold State.endFrame
  split
  · rfl
  · exact State.timerUpdate_inputs ..

/-- Log entry 1: a frame takes its own event and no other. -/
theorem step_frame_inputs (hi : s.inputs = .frame dt :: rest) (hdt : 0 ≤ dt) (h : step s = .next u) :
    u.inputs = rest := by
  cases hs : s.isHalted with
  | true => exact Host.Outcome.next.inj ((step_frame_halted hi hdt hs).symm.trans h) ▸ rfl
  | false =>
    obtain ⟨w, hrun⟩ := exists_batch_of_step_frame hi hdt hs h
    obtain rfl := Host.Outcome.next.inj ((step_frame hi hdt hs hrun).symm.trans h)
    exact State.endFrame_inputs.trans (runCycles_hostKept hrun).inputs

/-- Settles O55: the frame's batch and its end, and the bounds of the drained accumulator. -/
theorem frameRunsBatch : Obligations.FrameRunsBatch := by
  rintro s t dt rest due hi hdt hs h0 rfl hrun
  have hstep := step_frame hi hdt hs hrun
  have hkept := runCycles_hostKept hrun
  constructor
  · intro ht
    exact ⟨hstep.trans (congrArg _ (State.endFrame_halted ht)), hkept.cacc, hkept.tacc⟩
  · intro ht
    exact ⟨hstep.trans (congrArg _ (State.endFrame_live hrun ht)),
      drained_bounds (rateQ_pos s.cfg) (add_nonneg h0 hdt)⟩

/-- A frame that ends outside `Halted` began there, and ran a batch without a fault. -/
theorem batch_of_live_frame (hi : s.inputs = .frame dt :: rest) (hdt : 0 ≤ dt) (h : step s = .next u)
    (hu : u.isHalted = false) :
    s.isHalted = false ∧ ∃ w, runCycles (dueCycles s.cfg.rateQ (s.cacc + dt)) (s.batchStart dt rest) = .next w ∧
      u = { w with cacc := drained s.cfg.rateQ (s.cacc + dt) }.timerUpdate dt := by
  cases hs : s.isHalted with
  | true =>
    obtain rfl := Host.Outcome.next.inj ((step_frame_halted hi hdt hs).symm.trans h)
    exact nomatch hs.symm.trans hu
  | false =>
    obtain ⟨w, hrun⟩ := exists_batch_of_step_frame hi hdt hs h
    obtain rfl := Host.Outcome.next.inj ((step_frame hi hdt hs hrun).symm.trans h)
    cases hw : w.isHalted with
    | true =>
      rw [State.endFrame_halted hw] at hu
      exact nomatch hw.symm.trans hu
    | false => exact ⟨rfl, w, hrun, State.endFrame_live hrun hw⟩

/-- What a frame without a fault leaves of time and parameters. -/
theorem live_frame_fields (hi : s.inputs = .frame dt :: rest) (hdt : 0 ≤ dt) (h : step s = .next u)
    (hu : u.isHalted = false) :
    u.cfg = s.cfg ∧ u.cacc = drained s.cfg.rateQ (s.cacc + dt) ∧
      (0 ≤ s.tacc → u.tacc = drained 60 (s.tacc + dt)) := by
  obtain ⟨-, w, hrun, rfl⟩ := batch_of_live_frame hi hdt h hu
  have hkept := runCycles_hostKept hrun
  refine ⟨?_, State.timerUpdate_cacc .., fun h0 => ?_⟩
  · rw [State.timerUpdate_cfg]
    exact hkept.cfg
  · have htacc : w.tacc = s.tacc := hkept.tacc
    obtain ⟨-, -, hdrained⟩ := State.timerUpdate_timers { w with cacc := drained s.cfg.rateQ (s.cacc + dt) } (dt := dt)
      (htacc ▸ add_nonneg h0 hdt)
    rw [hdrained, htacc]

end

/-! ### A run of frames -/

theorem runSteps_succ {n : Nat} {s t : State} (h : runSteps (n + 1) s = .next t) :
    ∃ u, step s = .next u ∧ runSteps n u = .next t := by
  unfold runSteps at h
  split at h
  case h_1 u hu => exact ⟨u, hu, h⟩
  case h_2 | h_3 => exact nomatch h

theorem runSteps_succ_of_step {n : Nat} {s u : State} (h : step s = .next u) : runSteps (n + 1) s = runSteps n u := by
  simp only [runSteps, h]

/-- The steps that take the frames `dts`, all pending, lead from `s` to `t`, which is outside `Halted`. -/
structure RunsFrames (dts : List Rat) (rest : List HostEvent) (s t : State) : Prop where
  nonneg : ∀ dt ∈ dts, 0 ≤ dt
  pending : s.inputs = dts.map HostEvent.frame ++ rest
  run : runSteps dts.length s = .next t
  live : t.isHalted = false

section
variable {dts : List Rat} {rest : List HostEvent} {dt : Rat} {s t : State}

theorem RunsFrames.head_nonneg (h : RunsFrames (dt :: dts) rest s t) : 0 ≤ dt := h.nonneg dt List.mem_cons_self

/-- The first step of a run of frames, and the run of the others from there. -/
theorem RunsFrames.cons (h : RunsFrames (dt :: dts) rest s t) : ∃ u, step s = .next u ∧ RunsFrames dts rest u t := by
  obtain ⟨u, hu, hrun⟩ := runSteps_succ h.run
  exact ⟨u, hu, fun dt' hdt' => h.nonneg dt' (List.mem_cons_of_mem _ hdt'), step_frame_inputs h.pending h.head_nonneg hu,
    hrun, h.live⟩

/-- A run of frames that ends outside `Halted` begins there. -/
theorem RunsFrames.live_start (dts : List Rat) : ∀ {s : State}, RunsFrames dts rest s t → s.isHalted = false := by
  induction dts with
  | nil => exact fun h => Host.Outcome.next.inj h.run ▸ h.live
  | cons dt dts ih =>
    intro s h
    obtain ⟨u, hu, htail⟩ := h.cons
    exact (batch_of_live_frame h.pending h.head_nonneg hu (ih htail)).1

/-- R225, R227: over a run of frames the two accumulators are drained of the total time. -/
theorem RunsFrames.accumulators (dts : List Rat) : ∀ {s : State}, RunsFrames dts rest s t →
    (0 ≤ s.cacc → s.cacc < 1 / s.cfg.rateQ → t.cacc = drained s.cfg.rateQ (s.cacc + dts.sum)) ∧
    (0 ≤ s.tacc → s.tacc < 1 / 60 → t.tacc = drained 60 (s.tacc + dts.sum)) := by
  induction dts with
  | nil =>
    intro s h
    obtain rfl := Host.Outcome.next.inj h.run
    rw [List.sum_nil, add_zero, add_zero]
    exact ⟨fun h0 hlt => (drained_eq_self (rateQ_pos _) h0 hlt).symm,
      fun h0 hlt => (drained_eq_self (by norm_num) h0 hlt).symm⟩
  | cons dt dts ih =>
    intro s h
    obtain ⟨u, hu, htail⟩ := h.cons
    obtain ⟨hcfg, hcacc, htacc⟩ := live_frame_fields h.pending h.head_nonneg hu (RunsFrames.live_start dts htail)
    obtain ⟨ihc, iht⟩ := ih htail
    have hsum : 0 ≤ dts.sum := List.sum_nonneg htail.nonneg
    rw [List.sum_cons, ← add_assoc, ← add_assoc]
    constructor
    · intro h0 _
      have hacc : 0 ≤ s.cacc + dt := add_nonneg h0 h.head_nonneg
      obtain ⟨hlo, hhi⟩ := drained_bounds (rateQ_pos s.cfg) hacc
      rw [hcfg, hcacc] at ihc
      rw [ihc hlo hhi, drained_add (rateQ_pos s.cfg) hacc hsum]
    · intro h0 _
      have hacc : 0 ≤ s.tacc + dt := add_nonneg h0 h.head_nonneg
      obtain ⟨hlo, hhi⟩ := drained_bounds (rate := 60) (by norm_num) hacc
      rw [htacc h0] at iht
      rw [iht hlo hhi, drained_add (by norm_num) hacc hsum]

/-- R225: the `k`-th frame of a run executes the batch of the `k`-th size. -/
theorem RunsFrames.batch (dts : List Rat) : ∀ {s : State}, RunsFrames dts rest s t →
    ∀ (k : Nat) (u : State) (dt : Rat) (due : Nat), runSteps k s = .next u → dts[k]? = some dt →
      (batchSizes s.cfg.rateQ s.cacc dts)[k]? = some due →
      ∃ w, runCycles due (u.batchStart dt ((dts.drop (k + 1)).map HostEvent.frame ++ rest)) = .next w ∧
        step u = .next ({ w with cacc := u.cacc + dt - due / s.cfg.rateQ }.timerUpdate dt) := by
  induction dts with
  | nil => exact fun _ k u dt due _ hdt => nomatch hdt
  | cons dt dts ih =>
    intro s h k u dt' due hk hdt hdue
    obtain ⟨u', hu', htail⟩ := h.cons
    have hlive := RunsFrames.live_start dts htail
    cases k with
    | zero =>
      obtain rfl := Host.Outcome.next.inj hk
      obtain rfl := Option.some.inj hdt
      obtain rfl := Option.some.inj hdue
      obtain ⟨-, w, hrun, rfl⟩ := batch_of_live_frame h.pending h.head_nonneg hu' hlive
      exact ⟨w, hrun, hu'⟩
    | succ k =>
      obtain ⟨hcfg, hcacc, -⟩ := live_frame_fields h.pending h.head_nonneg hu' hlive
      rw [← hcfg]
      refine ih htail k u dt' due ((runSteps_succ_of_step hu').symm.trans hk) hdt ?_
      rw [hcfg, hcacc]
      exact hdue

end

/-- Settles O56: what a run of frames leaves in the accumulators, its batches, and the sum of their sizes. -/
theorem schedulerTotalCycles : Obligations.SchedulerTotalCycles := by
  intro s t dts rest h0 hdts hi hrun ht
  have hr := rateQ_pos s.cfg
  have hframes : RunsFrames dts rest s t := ⟨hdts, hi, hrun, ht⟩
  obtain ⟨hcacc, htacc⟩ := RunsFrames.accumulators dts hframes
  have hbatch := RunsFrames.batch dts hframes
  rw [h0, zero_add] at hcacc
  rw [h0] at hbatch
  have hsizes := batchSizes_sum hr dts 0 le_rfl (by positivity) hdts
  rw [zero_add] at hsizes
  refine ⟨hcacc le_rfl (by positivity), fun ht0 => ?_, hsizes, hbatch⟩
  rw [ht0, zero_add] at htacc
  exact htacc le_rfl (by norm_num)

end Sys2Proof.Machine

/-! PROOFS. Reset and the host's events (spec 70_reset_and_hazards.md R260 to R264, 60_exceptions.md R221, R222, R229 to R232): what
each event answers, case by case, and the statements about them. -/

namespace Sys2Proof.Machine

/-! ### Reset -/

/-- R30: above the font, memory that nothing has written is zero. -/
theorem unlistedByte_above (font : Font) {a : Nat} (h : 80 ≤ a) : unlistedByte font a = 0 :=
  dif_neg (Nat.not_lt.mpr h)

/-- R30: the font stands at the bottom of memory that nothing has written. -/
theorem unlistedByte_font (font : Font) (a : Fin 80) : unlistedByte font a = font[a] := dif_pos a.isLt

/-- Settles O6: the values `resetWith` writes out, register by register, cell by cell and byte by byte. -/
theorem resetStateFields : Obligations.ResetStateFields := by
  rintro cfg s rfl
  exact ⟨fun r => Vector.getElem_replicate r.isLt, rfl, rfl, rfl, fun k => Vector.getElem_replicate k.isLt, rfl, rfl,
    displayCell_clear, fun k => Vector.getElem_replicate k.isLt, rfl, rfl, rfl, unlistedByte_font cfg.font,
    fun _ => unlistedByte_above cfg.font⟩

/-- Settles O7: the event leaves the reset state of the parameters, but for the count of draws and the pending events. -/
theorem resetEventResets : Obligations.ResetEventResets :=
  fun s _ hi => ⟨_, step_event hi, resetStateFields s.cfg (State.resetWith s.cfg) rfl⟩

/-- Settles O10: nothing is listed at 0x200, and the word 0000 is no instruction. -/
theorem resetWithoutImageHalts : Obligations.ResetWithoutImageHalts := by
  rintro cfg s rfl
  have hzero : ∀ a, 80 ≤ a → (State.resetWith cfg).memRead a = 0 := fun _ => unlistedByte_above cfg.font
  have h0 := hzero 0x200 (by decide)
  have h1 := hzero 0x201 (by decide)
  have hpc : (State.resetWith cfg).pc.toNat ≤ 4094 := show (0x200 : Word).toNat ≤ 4094 by decide
  refine ⟨h0, h1, _, (step_cycle rfl).trans (cycle_unrecognized rfl hpc (op := 0) ?_), rfl⟩
  change decodeBytes [(State.resetWith cfg).memRead 0x200, (State.resetWith cfg).memRead 0x201] = _
  rw [h0, h1]
  decide

/-! ### What each event answers -/

section
variable {s : State} {k : Nat} {bytes : List Byte}

theorem frame_negative {dt : Rat} (h : dt < 0) : frame dt s = .refused .negativeFrameTime := if_pos h

theorem keyDown_refused (h : 15 < k) : keyDown k s = .refused .keyNumberOutOfRange := if_pos h

theorem keyDown_eq (h : k ≤ 15) :
    keyDown k s = if s.isHalted then .next s else .next ((s.closeLoad.setKey k true).endWait k) :=
  if_neg (Nat.not_lt.mpr h)

theorem keyUp_refused (h : 15 < k) : keyUp k s = .refused .keyNumberOutOfRange := if_pos h

theorem keyUp_eq (h : k ≤ 15) :
    keyUp k s = if s.isHalted then .next s else .next (s.closeLoad.setKey k false) :=
  if_neg (Nat.not_lt.mpr h)

theorem loadImage_refused (h : s.loadable = false) : loadImage bytes s = .refused .loadImageNotAfterReset :=
  if_pos (by rw [h]; rfl)

theorem loadImage_eq (h : s.loadable = true) : loadImage bytes s =
    if s.isHalted then .next s else .next (s.closeLoad.memWriteBlock 0x200 (bytes.take 3584)) :=
  if_neg (by rw [h]; decide)

/-- R229, R230: a key event writes the keys and nothing else. -/
theorem State.setKey_writes (b : Bool) : s.setKey k b = { s with key := (s.setKey k b).key } := by
  unfold State.setKey
  split <;> rfl

/-- R229: with no wait, a key-down event ends none. -/
theorem State.endWait_running (h : s.mode = .running) : s.endWait k = s := by
  simp only [State.endWait, h]

/-- R229: a key-down event ends a wait with the key's number. -/
theorem State.endWait_awaiting {x : Nibble} (h : s.mode = .awaitingKey x) :
    s.endWait k = { s.setReg x (BitVec.ofNat 8 k) with mode := .running } := by
  simp only [State.endWait, h]

end

/-! ### The inversion -/

/-- What an event can leave of a state `s` from which it has been taken. -/
inductive State.AnswersEvent (s : State) : HostEvent → State → Prop where
  /-- `Reset`, in any mode (R260). -/
  | reset : s.AnswersEvent .reset s.resetEvent
  /-- Any other event in `Halted` (R222). -/
  | absorbed {e : HostEvent} (h : s.isHalted = true) : s.AnswersEvent e s
  /-- The two observations (R231, R232). -/
  | observed {e : HostEvent} (h : e = .readDisplay ∨ e = .readStatus) : s.AnswersEvent e s
  /-- `LoadImage` (R264). -/
  | loadImage (bytes : List Byte) :
      s.AnswersEvent (.loadImage bytes) (s.closeLoad.memWriteBlock 0x200 (bytes.take 3584))
  /-- `KeyDown` (R229). -/
  | keyDown (k : Nat) : s.AnswersEvent (.keyDown k) ((s.closeLoad.setKey k true).endWait k)
  /-- `KeyUp` (R230). -/
  | keyUp (k : Nat) : s.AnswersEvent (.keyUp k) (s.closeLoad.setKey k false)
  /-- `Frame` (R225, R226): its batch, and what ends it. -/
  | frame {dt : Rat} {w : State} (hdt : 0 ≤ dt) (hs : s.isHalted = false)
      (hrun : runCycles (dueCycles s.cfg.rateQ (s.cacc + dt)) (s.batchStart dt s.inputs) = .next w) :
      s.AnswersEvent (.frame dt) (w.endFrame (dueCycles s.cfg.rateQ (s.cacc + dt)) dt)

section
variable {s t u : State} {e : HostEvent} {rest : List HostEvent}

/-- An event that is absorbed in `Halted` and else has one answer. -/
theorem answersEvent_of_live {o : Host.Outcome State Fault Refusal}
    (ho : o = if s.isHalted then .next s else .next u) (hu : s.AnswersEvent e u) (h : o = .next t) :
    s.AnswersEvent e t := by
  cases hs : s.isHalted with
  | true =>
    obtain rfl := Host.Outcome.next.inj ((ho.trans (if_pos hs)).symm.trans h)
    exact .absorbed hs
  | false =>
    obtain rfl := Host.Outcome.next.inj ((ho.trans (if_neg (by simp [hs]))).symm.trans h)
    exact hu

/-- A step that takes an event leaves one of `AnswersEvent`. -/
theorem answersEvent_of_step (hi : s.inputs = e :: rest) (h : step s = .next t) :
    ({ s with inputs := rest } : State).AnswersEvent e t := by
  have htake := (step_event hi).symm.trans h
  cases e with
  | reset => exact Host.Outcome.next.inj htake ▸ .reset
  | readDisplay => exact Host.Outcome.next.inj htake ▸ .observed (.inl rfl)
  | readStatus => exact Host.Outcome.next.inj htake ▸ .observed (.inr rfl)
  | loadImage bytes =>
    by_cases hl : ({ s with inputs := rest } : State).loadable = true
    · exact answersEvent_of_live (loadImage_eq hl) (.loadImage bytes) htake
    · exact nomatch (loadImage_refused (Bool.eq_false_iff.mpr hl)).symm.trans htake
  | keyDown k =>
    by_cases hk : k ≤ 15
    · exact answersEvent_of_live (keyDown_eq hk) (.keyDown k) htake
    · exact nomatch (keyDown_refused (Nat.not_le.mp hk)).symm.trans htake
  | keyUp k =>
    by_cases hk : k ≤ 15
    · exact answersEvent_of_live (keyUp_eq hk) (.keyUp k) htake
    · exact nomatch (keyUp_refused (Nat.not_le.mp hk)).symm.trans htake
  | frame dt =>
    rcases lt_or_ge dt 0 with hneg | hdt
    · exact nomatch (frame_negative hneg).symm.trans htake
    · cases hs : s.isHalted with
      | true => exact Host.Outcome.next.inj ((step_frame_halted hi hdt hs).symm.trans h) ▸ .absorbed hs
      | false =>
        obtain ⟨w, hrun⟩ := exists_batch_of_step_frame hi hdt hs h
        exact Host.Outcome.next.inj ((step_frame hi hdt hs hrun).symm.trans h) ▸ .frame hdt hs hrun

end

/-! ### The statements about refused and absorbed events -/

/-- Settles O19: in `Halted` each event that is not refused answers the state it is taken from. -/
theorem haltedAbsorbsEvents : Obligations.HaltedAbsorbsEvents := by
  intro s r e rest hm hi hwf hreset hload
  have hs : s.isHalted = true := State.isHalted_of_halted hm
  refine (step_event hi).trans ?_
  cases e with
  | reset => exact absurd rfl hreset
  | loadImage bytes => exact (loadImage_eq (s := { s with inputs := rest }) (hload ⟨bytes, rfl⟩)).trans (if_pos hs)
  | frame dt => exact (frame_eq (of_decide_eq_true hwf)).trans (if_pos hs)
  | keyDown k => exact (keyDown_eq (of_decide_eq_true hwf)).trans (if_pos hs)
  | keyUp k => exact (keyUp_eq (of_decide_eq_true hwf)).trans (if_pos hs)
  | readDisplay | readStatus => rfl

theorem State.endFrame_loadable {w : State} {due : Nat} {dt : Rat} :
    (w.endFrame due dt).loadable = w.loadable := by
  unfold State.endFrame
  split
  · rfl
  · exact State.timerUpdate_loadable ..

/-- D23: every event outside `Halted` but a reset and the observations closes the load. -/
theorem State.AnswersEvent.closes_load {s t : State} {e : HostEvent} (h : s.AnswersEvent e t)
    (hs : s.isHalted = false) (hr : e ≠ .reset) (hd : e ≠ .readDisplay) (hst : e ≠ .readStatus) :
    t.loadable = false := by
  cases h with
  | reset => exact absurd rfl hr
  | absorbed h => exact nomatch hs.symm.trans h
  | observed h => exact (h.elim hd hst).elim
  | loadImage | keyDown | keyUp => simp
  | frame _ _ hrun => exact State.endFrame_loadable.trans ((runCycles_hostKept hrun).loadable rfl)

/-- Settles O20: the four refusals, and what closes the load. -/
theorem eventsRefused : Obligations.EventsRefused := by
  refine ⟨fun s dt rest hi h => (step_event hi).trans (frame_negative h),
    fun s k rest hi h => (step_event hi).trans (keyDown_refused h),
    fun s k rest hi h => (step_event hi).trans (keyUp_refused h),
    fun s bytes rest hi h => (step_event hi).trans (loadImage_refused h), ?event, ?cycle⟩
  case event =>
    exact fun s t e rest hs hi hr hd hst h => (answersEvent_of_step hi h).closes_load hs hr hd hst
  case cycle =>
    intro s t hm hi h
    have hrun := (cycle_running hm).symm.trans ((step_cycle hi).symm.trans h)
    exact (runCycle_hostKept hrun).loadable rfl

/-! ### The statements about keys, images and observations -/

/-- R229, R230: the flags after a key event. -/
theorem State.setKey_flags (s : State) (k : Fin 16) (b : Bool) :
    (s.setKey k b).key[k] = b ∧ ∀ j : Fin 16, j ≠ k → (s.setKey k b).key[j] = s.key[j] :=
  ⟨(State.setKey_get s k b k).trans (if_pos rfl),
    fun j hj => (State.setKey_get s k b j).trans (if_neg (Fin.val_ne_of_ne hj))⟩

/-- A key number fits a register. -/
theorem toNat_keyNumber (k : Fin 16) : (BitVec.ofNat 8 k.val).toNat = k.val := by
  rw [BitVec.toNat_ofNat]
  omega

/-- R229: a key-down event outside `Halted`. -/
theorem step_keyDown {s : State} {k : Fin 16} {rest : List HostEvent} (hi : s.inputs = .keyDown k.val :: rest)
    (hs : s.isHalted = false) :
    step s = .next ((({ s with inputs := rest } : State).closeLoad.setKey k true).endWait k) :=
  (step_event hi).trans ((keyDown_eq (Nat.le_of_lt_succ k.isLt)).trans (if_neg (Bool.eq_false_iff.mp hs)))

/-- Settles O50: the flag of the key, and the end of the wait. -/
theorem keyDownEvent : Obligations.KeyDownEvent := by
  constructor
  · intro s k rest hi hm
    have hstep := step_keyDown hi (State.isHalted_of_running hm)
    rw [State.endWait_running (by simpa using hm)] at hstep
    obtain ⟨hself, hothers⟩ := State.setKey_flags ({ s with inputs := rest } : State).closeLoad k true
    exact ⟨_, hstep, hself, hothers, State.setKey_writes true⟩
  · intro s k x rest hi hm
    have hstep := step_keyDown hi (State.isHalted_of_awaiting hm)
    rw [State.endWait_awaiting (x := x) (by simpa using hm)] at hstep
    obtain ⟨hself, hothers⟩ := State.setKey_flags ({ s with inputs := rest } : State).closeLoad k true
    refine ⟨_, hstep, hself, hothers, ?number, rfl, ?kept, by simp⟩
    case number => exact (congrArg BitVec.toNat (State.reg_setReg_self ..)).trans (toNat_keyNumber k)
    case kept =>
      intro r hr
      refine (State.reg_setReg_other _ _ (List.ne_of_not_mem_cons hr)).trans ?_
      rw [State.reg_setKey]
      rfl

/-- Settles O51: the flag of the key, and nothing else. -/
theorem keyUpEvent : Obligations.KeyUpEvent := by
  intro s k rest hi hs
  obtain ⟨hself, hothers⟩ := State.setKey_flags ({ s with inputs := rest } : State).closeLoad k false
  exact ⟨_, (step_event hi).trans ((keyUp_eq (Nat.le_of_lt_succ k.isLt)).trans (if_neg (Bool.eq_false_iff.mp hs))),
    hself, hothers, State.setKey_writes false⟩

/-- Settles O57: a block write of the part of the image that fits. -/
theorem loadImageEvent : Obligations.LoadImageEvent := by
  intro s bytes rest hi hload hs
  have hlen : (bytes.take 3584).length = min bytes.length 3584 := by rw [List.length_take, Nat.min_comm]
  refine ⟨_, (step_event hi).trans ((loadImage_eq (s := { s with inputs := rest }) hload).trans
    (if_neg (Bool.eq_false_iff.mp hs))), ?image, ?others, ?frame⟩
  case image =>
    intro k hk hfits
    rw [State.memRead_memWriteBlock_self _ _ _ _ (by omega), List.getElem_take]
  case others =>
    intro a ha
    exact State.memRead_memWriteBlock_other _ ({ s with inputs := rest } : State).closeLoad _ a (hlen ▸ ha)
  case frame => exact State.memWriteBlock_eq ..

/-- Settles O58: the observations answer the state, and the grid is read cell by cell. -/
theorem observations : Obligations.Observations := by
  refine ⟨fun s rest hi => step_event hi, fun s rest hi => step_event hi, fun s => ⟨?length, ?cells⟩, fun s => rfl⟩
  case length => rw [State.readDisplay, List.length_map, Vector.length_toList]
  case cells =>
    intro x y hx hy
    have hk : 64 * y + x < 2048 := by omega
    rw [State.readDisplay, List.getElem?_map, List.getElem?_eq_getElem (by rwa [Vector.length_toList]), displayCell,
      dif_pos ⟨hx, hy⟩]
    simp [luminance]

end Sys2Proof.Machine

/-! PROOFS. The invariant of the machine (spec 10_state.md R45): it holds at reset, every cycle and every event keeps it, and from
it every batch and every frame answers. -/

namespace Sys2Proof.Machine

/-! ### The part of the invariant that a cycle rests on -/

/-- The invariant but for its bounds on the accumulators, which a frame breaks between its batch and its end. -/
structure State.CoreInv (s : State) : Prop where
  memory : memoryWf s.cfg.font s.mem = true
  /-- R45 (a) -/
  depth : s.sp.toNat ≤ 16
  /-- R45 (d) -/
  counter : s.pc.toNat ≤ 4098
  /-- R45 (e) -/
  returns : ∀ k : Fin 16, k.val < s.sp.toNat → s.stack[k].toNat ≤ 4096

section
variable {s t u : State}

theorem State.Inv.core (h : s.Inv) : s.CoreInv := ⟨h.memory, h.depth, h.counter, h.returns⟩

/-- A write of none of the fields the invariant speaks of but the program counter, which ends in bounds. -/
theorem State.CoreInv.of_pc (h : s.CoreInv) (hpc : t.pc.toNat ≤ 4098) (hmem : t.mem = s.mem := by simp)
    (hcfg : t.cfg = s.cfg := by simp) (hsp : t.sp = s.sp := by simp) (hstack : t.stack = s.stack := by simp) :
    t.CoreInv := by
  refine ⟨?_, ?_, hpc, ?_⟩
  · rw [hmem, hcfg]
    exact h.memory
  · rw [hsp]
    exact h.depth
  · rw [hsp, hstack]
    exact h.returns

/-! ### Instructions -/

/-- R45 (d): the address after an instruction inside memory. -/
theorem toNat_pc_add_two {pc : Word} (h : pc.toNat ≤ 4094) : (pc + 2).toNat ≤ 4096 := by
  bv_omega

/-- R45 (d): the address after a skip inside memory. -/
theorem toNat_skipIf_pc (h : s.pc.toNat ≤ 4094) (c : Bool) : (s.advance.skipIf c).pc.toNat ≤ 4098 := by
  rw [State.advance_skipIf_pc]
  split <;> bv_omega

/-- R45 (d): a jump lands on an address of 12 bits. -/
theorem State.CoreInv.jump (h : s.CoreInv) (nnn : Addr) : (s.jump (zextAddr nnn)).CoreInv :=
  h.of_pc (by rw [State.jump_pc, toNat_zextAddr]; omega)

/-- R45 (a), (e): a pop lands on a return address. -/
theorem State.CoreInv.pop (h : s.CoreInv) (h0 : s.sp.toNat ≠ 0) : s.pop.CoreInv := by
  have hdepth := State.pop_sp_toNat s h0 h.depth
  have hle := h.depth
  have hpc : s.pop.pc.toNat ≤ 4096 := by
    rw [State.pop_pc s (k := ⟨s.sp.toNat - 1, by omega⟩) (Nat.sub_add_cancel (Nat.pos_of_ne_zero h0)).symm]
    exact h.returns _ (Nat.sub_lt (Nat.pos_of_ne_zero h0) Nat.one_pos)
  refine ⟨?_, by omega, by omega, ?_⟩
  · rw [State.pop_mem, State.pop_cfg]
    exact h.memory
  · intro k hk
    rw [State.pop_stack]
    exact h.returns k (by omega)

/-- R45 (a), (e): a push of an address inside memory. -/
theorem State.CoreInv.push (h : s.CoreInv) (hsp : s.sp.toNat < 16) (hpc : s.pc.toNat ≤ 4096) : s.push.CoreInv := by
  have hdepth := State.push_sp_toNat s hsp
  refine ⟨?_, by omega, by rw [State.push_pc]; omega, ?_⟩
  · rw [State.push_mem, State.push_cfg]
    exact h.memory
  · intro k hk
    rw [State.push_stack_get s (k := ⟨s.sp.toNat, hsp⟩) rfl]
    split
    · exact hpc
    · rename_i hne
      have hk' : k.val ≠ s.sp.toNat := Fin.val_ne_of_ne hne
      exact h.returns k (by omega)

/-- A block write inside memory. -/
theorem State.CoreInv.memWriteBlock (h : s.CoreInv) {base : Nat} {bs : List Byte} (hb : base + bs.length ≤ 4096) :
    (s.memWriteBlock base bs).CoreInv := by
  refine ⟨?_, ?_, ?_, ?_⟩
  · rw [State.memWriteBlock_cfg]
    exact State.memoryWf_memWriteBlock bs s base h.memory hb
  · rw [State.memWriteBlock_sp]
    exact h.depth
  · rw [State.memWriteBlock_pc]
    exact h.counter
  · rw [State.memWriteBlock_sp, State.memWriteBlock_stack]
    exact h.returns

/-- Every instruction fetched inside memory keeps the invariant. -/
theorem exec_coreInv {i : Instr} (h : s.CoreInv) (hpc : s.pc.toNat ≤ 4094) (hexec : exec i s = .next t) : t.CoreInv := by
  have hnext : s.advance.pc.toNat ≤ 4096 := toNat_pc_add_two hpc
  have hadv : s.advance.CoreInv := h.of_pc (by omega)
  cases answers_of_exec hexec with
  | skip i c => exact h.of_pc (toNat_skipIf_pc hpc c)
  | ret h0 _ => exact hadv.pop h0
  | jp nnn => exact hadv.jump nnn
  | call nnn hsp => exact (hadv.push hsp hnext).jump nnn
  | ldBVx x hr =>
    rw [digitsRange_iff] at hr
    exact hadv.memWriteBlock (by simp [bcdDigits, State.base]; omega)
  | ldMemVx x hr =>
    rw [blockRange_iff] at hr
    have hlen := State.regBlock_length s x
    have hstored : (s.advance.memWriteBlock s.base (s.regBlock x)).CoreInv :=
      hadv.memWriteBlock (by rw [hlen, State.base]; omega)
    exact hstored.of_pc hstored.counter
  | _ => exact hadv.of_pc (by simp; omega)

/-! ### Cycles and batches -/

theorem runCycle_coreInv (h : s.CoreInv) (hrun : runCycle s = .next t) : t.CoreInv := by
  by_cases hpc : s.pc.toNat ≤ 4094
  · cases hdec : decodeWord (wordOfBytes (s.memRead s.pc.toNat) (s.memRead (s.pc.toNat + 1))) with
    | none =>
      obtain rfl := Host.Outcome.next.inj ((runCycle_unrecognized hpc rfl hdec).symm.trans hrun)
      exact h.of_pc ((toNat_pc_add_two hpc).trans (by decide))
    | some i => exact exec_coreInv h hpc ((runCycle_exec hpc hdec).symm.trans hrun)
  · obtain rfl := Host.Outcome.next.inj ((runCycle_fetch_fault (Nat.not_le.mp hpc)).symm.trans hrun)
    exact h.of_pc h.counter

theorem State.CoreInv.closeLoad (h : s.CoreInv) : s.closeLoad.CoreInv := h.of_pc h.counter

theorem State.CoreInv.batchStart (h : s.CoreInv) (dt : Rat) (rest : List HostEvent) : (s.batchStart dt rest).CoreInv :=
  h.of_pc h.counter rfl rfl rfl rfl

theorem cycle_coreInv (h : s.CoreInv) (hcycle : cycle s = .next t) : t.CoreInv := by
  cases hm : s.mode with
  | running => exact runCycle_coreInv h.closeLoad ((cycle_running hm).symm.trans hcycle)
  | awaitingKey x => exact Host.Outcome.next.inj ((cycle_awaiting hm).symm.trans hcycle) ▸ h
  | halted r => exact Host.Outcome.next.inj ((cycle_halted hm).symm.trans hcycle) ▸ h

theorem runCycles_coreInv {n : Nat} (h : s.CoreInv) (hrun : runCycles n s = .next t) : t.CoreInv :=
  runCycles_induction (R := fun s t => s.CoreInv → t.CoreInv) (fun _ => id) (fun hst htu => htu ∘ hst)
    (fun hcycle h => cycle_coreInv h hcycle) n hrun h

/-- R216: no cycle leads out of `Halted`. -/
theorem live_of_live_cycle (hcycle : cycle s = .next t) (ht : t.isHalted = false) : s.isHalted = false := by
  cases hm : s.mode with
  | running => exact State.isHalted_of_running hm
  | awaitingKey x => exact State.isHalted_of_awaiting hm
  | halted r => exact Host.Outcome.next.inj ((cycle_halted hm).symm.trans hcycle) ▸ ht

/-! ### The whole invariant -/

/-- The invariant, from the part of it a step may change and the accumulators left as they are. -/
theorem State.Inv.of_core (h : s.Inv) (hcore : t.CoreInv) (hlive : t.isHalted = false → s.isHalted = false)
    (htacc : t.tacc = s.tacc := by simp) (hcacc : t.cacc = s.cacc := by simp) (hcfg : t.cfg = s.cfg := by simp) :
    t.Inv where
  memory := hcore.memory
  depth := hcore.depth
  counter := hcore.counter
  returns := hcore.returns
  timer := htacc ▸ h.timer
  cycles := hcacc ▸ h.cycles
  cyclesBound := by
    rw [hcacc, hcfg]
    exact h.cyclesBound ∘ hlive

theorem cycle_inv (h : s.Inv) (hcycle : cycle s = .next t) : t.Inv := by
  have hkept := cycle_hostKept hcycle
  exact h.of_core (cycle_coreInv h.core hcycle) (live_of_live_cycle hcycle) hkept.tacc hkept.cacc hkept.cfg

/-- R47: the reset state, whatever the parameters. -/
theorem resetWith_inv (cfg : Config) : (State.resetWith cfg).Inv where
  memory := rfl
  depth := show (0 : Byte).toNat ≤ 16 by decide
  counter := show (0x200 : Word).toNat ≤ 4098 by decide
  returns := fun _ hk => absurd hk (Nat.not_lt_zero _)
  timer := ⟨le_rfl, by unfold tickInterval; norm_num [State.resetWith]⟩
  cycles := le_rfl
  cyclesBound := fun _ => div_pos one_pos (rateQ_pos cfg)

/-- R229: a key-down event outside `Halted` stays there. -/
theorem State.isHalted_endWait (s : State) (k : Nat) : (s.endWait k).isHalted = s.isHalted := by
  unfold State.endWait State.isHalted
  cases hm : s.mode <;> simp [hm]

/-- R45: the end of a frame restores the bounds its batch leaves open. -/
theorem endFrame_inv {dt : Rat} {rest : List HostEvent} {due : Nat} {w : State} (h : s.Inv) (hdt : 0 ≤ dt)
    (hdue : due = dueCycles s.cfg.rateQ (s.cacc + dt)) (hrun : runCycles due (s.batchStart dt rest) = .next w) :
    (w.endFrame due dt).Inv := by
  have hkept := runCycles_hostKept hrun
  have hw : w.CoreInv := runCycles_coreInv (h.core.batchStart dt rest) hrun
  have hcacc : 0 ≤ s.cacc + dt := add_nonneg h.cycles hdt
  have htacc : 0 ≤ s.tacc + dt := add_nonneg h.timer.1 hdt
  cases hlive : w.isHalted with
  | true =>
    rw [State.endFrame_halted hlive]
    exact ⟨hw.memory, hw.depth, hw.counter, hw.returns, hkept.tacc ▸ h.timer, hkept.cacc ▸ hcacc,
      fun hl => nomatch hlive.symm.trans hl⟩
  | false =>
    rw [State.endFrame_live hrun hlive, hdue]
    have hrest : 0 ≤ w.tacc + dt := hkept.tacc ▸ htacc
    obtain ⟨-, -, hticked⟩ := State.timerUpdate_timers { w with cacc := drained s.cfg.rateQ (s.cacc + dt) } hrest
    obtain ⟨hlo, hhi⟩ := drained_bounds (rateQ_pos s.cfg) hcacc
    have hcore : ({ w with cacc := drained s.cfg.rateQ (s.cacc + dt) }.timerUpdate dt).CoreInv :=
      hw.of_pc (by simpa using hw.counter)
    refine ⟨hcore.memory, hcore.depth, hcore.counter, hcore.returns, ?ticks, ?lower, fun _ => ?upper⟩
    case ticks => exact hticked ▸ drained_bounds (by norm_num) hrest
    case lower => exact (State.timerUpdate_cacc ..).symm ▸ hlo
    case upper =>
      have hcfg : w.cfg = s.cfg := hkept.cfg
      change ({ w with cacc := drained s.cfg.rateQ (s.cacc + dt) }.timerUpdate dt).cacc < _
      rw [State.timerUpdate_cacc, State.timerUpdate_cfg, hcfg]
      exact hhi

/-- R45: every event that is not refused keeps the invariant. -/
theorem State.AnswersEvent.inv {e : HostEvent} (h : s.AnswersEvent e t) (hs : s.Inv) : t.Inv := by
  have hclosed : s.closeLoad.CoreInv := hs.core.closeLoad
  cases h with
  | reset =>
    have hreset := resetWith_inv s.cfg
    exact hreset.of_core (hreset.core.of_pc hreset.counter rfl rfl rfl rfl) id rfl rfl rfl
  | absorbed _ => exact hs
  | observed _ => exact hs
  | loadImage bytes =>
    have hlen : (bytes.take 3584).length ≤ 3584 := List.length_take_le ..
    have hmode : (s.closeLoad.memWriteBlock 0x200 (bytes.take 3584)).isHalted = s.isHalted :=
      State.isHalted_congr (by simp)
    exact hs.of_core (hclosed.memWriteBlock (by omega)) (hmode.symm.trans ·)
  | keyDown k =>
    have hkey : (s.closeLoad.setKey k true).isHalted = s.isHalted := State.isHalted_congr (by simp)
    exact hs.of_core (hclosed.of_pc (by simpa using hs.counter))
      (((State.isHalted_endWait _ k).trans hkey).symm.trans ·)
  | keyUp k =>
    have hkey : (s.closeLoad.setKey k false).isHalted = s.isHalted := State.isHalted_congr (by simp)
    exact hs.of_core (hclosed.of_pc (by simpa using hs.counter)) (hkey.symm.trans ·)
  | frame hdt _ hrun => exact endFrame_inv hs hdt rfl hrun

/-- Log entry 1: taking an event from what is pending touches no field the invariant speaks of. -/
theorem State.Inv.take (h : s.Inv) (rest : List HostEvent) : ({ s with inputs := rest } : State).Inv :=
  h.of_core (h.core.of_pc h.counter rfl rfl rfl rfl) id rfl rfl rfl

/-! ### From the invariant a batch and a frame answer -/

/-- An instruction with one check answers whether it passes or fails. -/
theorem exists_next_of_check {p : Prop} [Decidable p] {i : Instr} {u v : State}
    (hexec : exec i s = if p then .next u else .next v) : ∃ t, exec i s = .next t := by
  by_cases hp : p
  · exact ⟨u, hexec.trans (if_pos hp)⟩
  · exact ⟨v, hexec.trans (if_neg hp)⟩

/-- Log entry 6: with a depth the stack has, an instruction answers a next state. -/
theorem exists_next_of_exec (i : Instr) (hsp : s.sp.toNat ≤ 16) : ∃ t, exec i s = .next t := by
  cases i with
  | ret =>
    by_cases h0 : s.sp.toNat = 0
    · exact ⟨_, exec_ret_empty s h0⟩
    · exact ⟨_, exec_ret_pop s h0 hsp⟩
  | call nnn =>
    rcases Nat.lt_or_eq_of_le hsp with hlt | heq
    · exact ⟨_, exec_call_push s nnn hlt⟩
    · exact ⟨_, exec_call_full s nnn heq⟩
  | skp x =>
    by_cases hk : 15 < (s.reg x).toNat
    · exact ⟨_, exec_skp_no_key s hk⟩
    · exact ⟨_, exec_skp_key s (by omega)⟩
  | sknp x =>
    by_cases hk : 15 < (s.reg x).toNat
    · exact ⟨_, exec_sknp_no_key s hk⟩
    · exact ⟨_, exec_sknp_key s (by omega)⟩
  | drw | ldFVx | ldBVx | ldMemVx | ldVxMem => exact exists_next_of_check rfl
  | _ => exact ⟨_, rfl⟩

theorem exists_next_of_cycle (hsp : s.sp.toNat ≤ 16) : ∃ t, cycle s = .next t := by
  cases hm : s.mode with
  | running =>
    rw [cycle_running hm]
    by_cases hpc : s.closeLoad.pc.toNat ≤ 4094
    · cases hdec : decodeWord (wordOfBytes (s.closeLoad.memRead s.closeLoad.pc.toNat)
          (s.closeLoad.memRead (s.closeLoad.pc.toNat + 1))) with
      | none => exact ⟨_, runCycle_unrecognized hpc rfl hdec⟩
      | some i =>
        rw [runCycle_exec hpc hdec]
        exact exists_next_of_exec i hsp
    · exact ⟨_, runCycle_fetch_fault (Nat.not_le.mp hpc)⟩
  | awaitingKey x => exact ⟨_, cycle_awaiting hm⟩
  | halted r => exact ⟨_, cycle_halted hm⟩

/-- A batch of any length answers a next state. -/
theorem exists_next_of_runCycles (n : Nat) : ∀ {s : State}, s.CoreInv → ∃ t, runCycles n s = .next t := by
  induction n with
  | zero => exact fun _ => ⟨_, rfl⟩
  | succ n ih =>
    intro s h
    obtain ⟨u, hu⟩ := exists_next_of_cycle h.depth
    cases hlive : u.isHalted with
    | true => exact ⟨u, runCycles_stop hu hlive⟩
    | false =>
      rw [runCycles_go_on hu hlive]
      exact ih (cycle_coreInv h hu)

/-- A frame whose time is not negative has a step. -/
theorem exists_next_of_frame {dt : Rat} {rest : List HostEvent} (h : s.CoreInv) (hi : s.inputs = .frame dt :: rest)
    (hdt : 0 ≤ dt) : ∃ t, step s = .next t := by
  cases hs : s.isHalted with
  | true => exact ⟨_, step_frame_halted hi hdt hs⟩
  | false =>
    obtain ⟨w, hrun⟩ := exists_next_of_runCycles _ (h.batchStart dt rest)
    exact ⟨_, step_frame hi hdt hs hrun⟩

/-- Log entry 6: no step from the invariant ends in the model's fault; a refusal is none. -/
theorem step_ne_fault (h : s.CoreInv) (f : Fault) : step s ≠ .fault f := by
  intro hstep
  cases hi : s.inputs with
  | nil =>
    obtain ⟨t, ht⟩ := exists_next_of_cycle h.depth
    exact nomatch ((step_cycle hi).trans ht).symm.trans hstep
  | cons e rest =>
    have htake := (step_event hi).symm.trans hstep
    cases e with
    | frame dt =>
      rcases lt_or_ge dt 0 with hneg | hdt
      · exact nomatch (frame_negative hneg).symm.trans htake
      · obtain ⟨t, ht⟩ := exists_next_of_frame h hi hdt
        exact nomatch ht.symm.trans hstep
    | reset | readDisplay | readStatus => exact nomatch htake
    | loadImage | keyDown | keyUp =>
      simp only [takeEvent, loadImage, keyDown, keyUp] at htake
      split_ifs at htake

end

/-! ### The statements -/

/-- Settles O8: the reset state of any parameters, those of `State.reset` among them. -/
theorem resetMeetsInvariant : Obligations.ResetMeetsInvariant := ⟨resetWith_inv, resetWith_inv Config.standard⟩

/-- Settles O9: with nothing pending a cycle, else an event, each of which keeps the invariant. -/
theorem stepKeepsInvariant : Obligations.StepKeepsInvariant := by
  intro s t h hstep
  cases hi : s.inputs with
  | nil => exact cycle_inv h ((step_cycle hi).symm.trans hstep)
  | cons e rest => exact (answersEvent_of_step hi hstep).inv (h.take rest)

/-- R224: a batch while a key is awaited is idle. -/
theorem runCycles_awaiting {s : State} {x : Nibble} (h : s.mode = .awaitingKey x) (n : Nat) :
    runCycles n s = .next s := by
  induction n with
  | zero => rfl
  | succ n ih => exact (runCycles_go_on (cycle_awaiting h) (State.isHalted_of_awaiting h)).trans ih

/-- Settles O60: an idle batch and its end; from the invariant, batches, frames and steps. -/
theorem framesAlwaysStep : Obligations.FramesAlwaysStep := by
  refine ⟨?awaiting, fun s dt rest n h => exists_next_of_runCycles n (h.core.batchStart dt rest),
    fun s dt rest h hi hdt => exists_next_of_frame h.core hi hdt, fun s f h => step_ne_fault h.core f⟩
  intro s x dt rest hm hi hdt
  have hs : s.isHalted = false := State.isHalted_of_awaiting hm
  have hrun := runCycles_awaiting (s := s.batchStart dt rest) hm (dueCycles s.cfg.rateQ (s.cacc + dt))
  have hstep := step_frame hi hdt hs hrun
  rw [State.endFrame_live hrun hs] at hstep
  refine ⟨_, hstep, ?frame, State.timerUpdate_cacc .., State.timerUpdate_congr dt rfl rfl rfl⟩
  case frame =>
    refine (State.timerUpdate_writes _ dt).trans ?_
    rw [State.timerUpdate_cacc]
    rfl

end Sys2Proof.Machine
